-- ==== Sys2Proof/Word.lean ====
section
/-! DEFINITION. The value types of spec/00_scope.md R9: words, containers, bytes and text. -/

namespace Sys2Proof

/-- One byte of the caller's buffer (R41). -/
abbrev Byte := BitVec 8

/-- The instruction word of one decode transaction: "an opaque 32-bit unsigned integer" (R6). -/
abbrev Word := BitVec 32

/-- The container of the opcode, of a register index and of MTC0's sel (R9). -/
abbrev U8 := BitVec 8

/-- The container of an immediate and of the LW offset (R9). -/
abbrev U16 := BitVec 16

/-- The container of the BEQL offset, a two's-complement pattern (R9); its value is `toInt`. -/
abbrev I32 := BitVec 32

/-- "`Text` is a finite sequence of ASCII characters" (R9). That every character the machine writes is ASCII is
a claim about the renderings, not a property of this type (log entry 8). -/
abbrev Text := List Char

end Sys2Proof
end

