-- ==== Sys2Proof/Machine/Operands.lean ====
section
/-! DEFINITION. Every operand form of a line (spec/40_dispatch.md R109 to R113): register operands, hexadecimal and
decimal values, and the six binary digits of the fallback. -/

namespace Sys2Proof.Machine

/-- `dec(v)` (R111): decimal digits, no leading zeros, `dec(0) = "0"`. -/
def dec (v : Nat) : Text := Nat.toDigits 10 v

/-- `hex(v)` (R110): `0x` and lowercase hexadecimal digits, no leading zeros, `hex(0) = "0x0"`. -/
def hex (v : Nat) : Text := ['0', 'x'] ++ Nat.toDigits 16 v

/-- `hex(v)` of an `i32` (R110, D13): its 32-bit two's-complement pattern. -/
def hexI32 (v : I32) : Text := hex v.toNat

/-- A general-register operand, `"r" ++ dec(i)` (R109); no index is renamed. -/
def gprOperand (i : U8) : Text := ['r'] ++ dec i.toNat

/-- A coprocessor-register operand, `"c" ++ dec(i)` (R109). -/
def cprOperand (i : U8) : Text := ['c'] ++ dec i.toNat

/-- LW's memory operand (R161): the offset in decimal, then the base in parentheses, decimal with no prefix (C4, C5). -/
def memOperand (offset : U16) (base : U8) : Text :=
  dec offset.toNat ++ ['('] ++ dec base.toNat ++ [')']

/-- Operands joined by a comma and one space (R112). -/
def joinOperands : List Text → Text
  | [] => []
  | [t] => t
  | t :: ts => t ++ [',', ' '] ++ joinOperands ts

/-- The layout of a line (R112): the mnemonic, one space, the operands. -/
def lineText (mnemonic : Text) (operands : List Text) : Text :=
  mnemonic ++ [' '] ++ joinOperands operands

/-- One binary digit. -/
def binDigit (b : Bool) : Char := if b then '1' else '0'

/-- `bin6(op)` (R113): the six binary digits of an opcode, most significant first, zero-padded, no prefix.
Of a u8 above 63, which is no opcode, it writes the low six bits: DESIGN CHOICE (log entry 21). -/
def bin6 (op : U8) : Text :=
  [binDigit (op.getLsbD 5), binDigit (op.getLsbD 4), binDigit (op.getLsbD 3),
   binDigit (op.getLsbD 2), binDigit (op.getLsbD 1), binDigit (op.getLsbD 0)]

end Sys2Proof.Machine
end

