-- ==== Sys2Proof/Config.lean ====
section
/-! DEFINITION. What is fixed when a model is instantiated (spec/00_scope.md R7), and the free values: the outputs
of the port view that a word does not drive (spec/10_state.md R33, spec/93_implementation_defined.md U3). -/

namespace Sys2Proof

/-- `LUI_RT_LO` (R7, D4): the low bit of LUI's rt field, 16 or 21. -/
inductive LuiRtLo where
  | bit16
  | bit21
deriving DecidableEq, Repr

/-- `MTC0_SEL_HI` (R7, D5): the high bit of MTC0's sel field, 2 or 3. -/
inductive Mtc0SelHi where
  | bit2
  | bit3
deriving DecidableEq, Repr

/-- The parameters of R7 that change how a word is decoded. `WORD_COUNT`, the fourth parameter of R7, is the
caller's and stands in State. The setting the spec decides is `decidedParams` in Decode.lean. -/
structure Params where
  beqlSext  : Bool
  luiRtLo   : LuiRtLo
  mtc0SelHi : Mtc0SelHi
deriving DecidableEq, Repr

/-! The free values of the port view (log entry 7): what a port carries when the word at hand does not drive it.
Each is a function of the word because every port is combinational (R33); none has a body a proof can see. -/

/-- `kind` while `hit` is 0. -/
opaque Config.undrivenKind : Word → BitVec 3
/-- `f_rs` of a word whose variant has no rs. -/
opaque Config.undrivenRs : Word → BitVec 5
/-- `f_rt` of a word whose variant has no rt. -/
opaque Config.undrivenRt : Word → BitVec 5
/-- `f_rd` of a word whose variant has no rd. -/
opaque Config.undrivenRd : Word → BitVec 5
/-- `f_base` of a word whose variant has no base. -/
opaque Config.undrivenBase : Word → BitVec 5
/-- `f_imm` of a word whose variant has neither an immediate nor the LW offset. -/
opaque Config.undrivenImm : Word → BitVec 16
/-- `f_sel` of a word whose variant has no sel. -/
opaque Config.undrivenSel : Word → BitVec 4
/-- `f_off` of a word whose variant has no BEQL offset. -/
opaque Config.undrivenOff : Word → BitVec 32

end Sys2Proof
end

