-- ==== Sys2Proof/Syntax.lean ====
section
/-! DEFINITION. The closed set of six kinds and the decoded-instruction value (spec/10_state.md R22, R23). -/

namespace Sys2Proof

/-- The six instruction kinds an entry of the decode_table can name (R21, R22), in the order of the `kind` codes
of R33. -/
inductive Kind where
  | andi
  | ori
  | lui
  | lw
  | mtc0
  | beql
deriving DecidableEq, Repr

/-- A decoded instruction (R23): one variant per kind, each with exactly the fields and field types R23 gives it.
One constructor per row of spec/opcode_table.json. -/
inductive Instr where
  | andi (rs rt : U8) (immediate : U16)
  | ori  (rs rt : U8) (immediate : U16)
  | lui  (rt : U8) (immediate : U16)
  | lw   (base rt : U8) (offset : U16)
  | mtc0 (rt rd sel : U8)
  | beql (rs rt : U8) (offset : I32)
deriving DecidableEq, Repr

/-- The kind of a decoded instruction. -/
def Instr.kind : Instr → Kind
  | .andi _ _ _ => .andi
  | .ori _ _ _ => .ori
  | .lui _ _ => .lui
  | .lw _ _ _ => .lw
  | .mtc0 _ _ _ => .mtc0
  | .beql _ _ _ => .beql

end Sys2Proof
end

