-- ==== Sys2Proof/WellFormed.lean ====
section
/-! DEFINITION. The value invariants of a decoded instruction the block produces (spec/10_state.md R24). -/

namespace Sys2Proof

/-- A register index is in 0..31 (R24, R26). -/
def regIndexOk (r : U8) : Bool := decide (r.toNat ≤ 31)

/-- sel is in 0..15 with `MTC0_SEL_HI` = 3 (R24), in 0..7 with `MTC0_SEL_HI` = 2 (R62). -/
def selOk : Mtc0SelHi → U8 → Bool
  | .bit3, sel => decide (sel.toNat ≤ 15)
  | .bit2, sel => decide (sel.toNat ≤ 7)

/-- The BEQL offset is a multiple of 4 in 0..262140 with `BEQL_SEXT` = false (R24), in -131072..131068 with
`BEQL_SEXT` = true (R70). -/
def beqlOffsetOk (sext : Bool) (offset : I32) : Bool :=
  decide (offset.toInt % 4 = 0) &&
    (if sext then decide (-131072 ≤ offset.toInt) && decide (offset.toInt ≤ 131068)
     else decide (0 ≤ offset.toInt) && decide (offset.toInt ≤ 262140))

/-- The invariants of R24 under a setting of the parameters of R7. Immediates and the LW offset take every value of
their container, so nothing is asked of them. -/
def Instr.wfUnder (p : Params) : Instr → Bool
  | .andi rs rt _ => regIndexOk rs && regIndexOk rt
  | .ori rs rt _ => regIndexOk rs && regIndexOk rt
  | .lui rt _ => regIndexOk rt
  | .lw base rt _ => regIndexOk base && regIndexOk rt
  | .mtc0 rt rd sel => regIndexOk rt && regIndexOk rd && selOk p.mtc0SelHi sel
  | .beql rs rt offset => regIndexOk rs && regIndexOk rt && beqlOffsetOk p.beqlSext offset

end Sys2Proof
end

