-- ==== Sys2Proof/Decode.lean ====
section
/-! DEFINITION. The bit-range extractor, the decode_table, the six field extractors and the opcode dispatcher
(spec/40_dispatch.md R100 to R106, spec/30_encoding.md), the words of a byte stream (spec/20_memory.md R42), and
after them the encoder, which puts the fields of a decoded instruction back at the positions of R62. -/

namespace Sys2Proof

/-! ## The bit-range extractor -/

/-- Why the extractor gives no result. No input word leads to either. -/
inductive ExtractRefusal where
  /-- The requested range is not within the value: `lo > hi` or `hi >= N` (R101, R302). Safe: the spec refuses it. -/
  | contractViolation
  /-- The range lies within the value but is wider than the container: of the fixed entry point asked for, where the spec
  says nothing (R102), or of them all. Safe: there is no value to prove anything of. DESIGN CHOICE (log entry 22). -/
  | widerThanContainer
deriving DecidableEq, Repr

/-- M of R100: the smallest of 8, 16, 32, 64 that holds a field of this width. A wider field than 64 bits has no
container, and `extract` refuses it. -/
def containerBits (width : Nat) : Nat :=
  if width ≤ 8 then 8 else if width ≤ 16 then 16 else if width ≤ 32 then 32 else 64

/-- The mask of `width` ones at N bits; "for width = N the mask is all ones" (R100). -/
def lowMask (n width : Nat) : BitVec n := (1#n <<< width) - 1#n

/-- `(value >> lo) & ((1 << width) - 1)`, computed at N bits (R100). -/
def fieldBits {n : Nat} (v : BitVec n) (lo hi : Nat) : BitVec n :=
  (v >>> lo) &&& lowMask n (hi - lo + 1)

/-- `extract(value, lo, hi)` of R100, with its result in the container R100 gives it; a request outside the
precondition of R101 is refused and never answered with a value, and so is a range wider than every container, which no
value of R9 has (log entry 22). -/
def extract {n : Nat} (v : BitVec n) (lo hi : Nat) :
    Except ExtractRefusal (BitVec (containerBits (hi - lo + 1))) :=
  if lo ≤ hi ∧ hi < n then
    if hi - lo + 1 ≤ 64 then .ok ((fieldBits v lo hi).setWidth _) else .error .widerThanContainer
  else .error .contractViolation

/-- A range of a word that meets the precondition of R101 and fits a container of this many bits. The precondition is
carried by the range, so that no request outside it can be built: "callers must not construct out-of-range requests". -/
structure FieldRange (container : Nat) where
  lo : Nat
  hi : Nat
  ordered : lo ≤ hi := by decide
  inWord : hi < 32 := by decide
  fits : hi - lo + 1 ≤ container := by decide

/-- The number of bits in a range. -/
def FieldRange.width {c : Nat} (r : FieldRange c) : Nat := r.hi - r.lo + 1

/-- The range a request names, or why it is refused (R101, R302; a range wider than the container: log entry 22). -/
def FieldRange.request (container lo hi : Nat) : Except ExtractRefusal (FieldRange container) :=
  if h : lo ≤ hi ∧ hi < 32 then
    if fits : hi - lo + 1 ≤ container then .ok { lo, hi, ordered := h.1, inWord := h.2, fits }
    else .error .widerThanContainer
  else .error .contractViolation

/-- `w[hi:lo]` of a range that meets the precondition, in an 8-bit container (R100, R102). -/
def readField8 (w : Word) (r : FieldRange 8) : U8 := (fieldBits w r.lo r.hi).setWidth 8

/-- `w[hi:lo]` of a range that meets the precondition, in a 16-bit container (R100, R102). -/
def readField16 (w : Word) (r : FieldRange 16) : U16 := (fieldBits w r.lo r.hi).setWidth 16

/-- The 8-bit entry point of R102, asked for any range: a request outside the precondition is refused (R101). -/
def extract8 (w : Word) (lo hi : Nat) : Except ExtractRefusal U8 :=
  (FieldRange.request 8 lo hi).map (readField8 w)

/-- The 16-bit entry point of R102, asked for any range: a request outside the precondition is refused (R101). -/
def extract16 (w : Word) (lo hi : Nat) : Except ExtractRefusal U16 :=
  (FieldRange.request 16 lo hi).map (readField16 w)

/-! ## The fields of a word

The ranges of R61 and R62: every range the decoder uses. That each meets the precondition of R101 is checked where it is
written. -/

/-- The opcode, bits 31..26 of every word (R61). -/
def opcodeField : FieldRange 8 := { lo := 26, hi := 31 }

/-- rs of ANDI, ORI and BEQL and base of LW, bits 25..21 (R62). -/
def rsField : FieldRange 8 := { lo := 21, hi := 25 }

/-- rt of ANDI, ORI, LW, MTC0 and BEQL, bits 20..16 (R62). -/
def rtField : FieldRange 8 := { lo := 16, hi := 20 }

/-- rd of MTC0, bits 15..11 (R62). -/
def rdField : FieldRange 8 := { lo := 11, hi := 15 }

/-- The immediate, the LW offset and the raw BEQL offset, bits 15..0 (R62). -/
def lowHalfField : FieldRange 16 := { lo := 0, hi := 15 }

/-- rt of LUI: bits 25..21 with `LUI_RT_LO` = 21, bits 20..16 with `LUI_RT_LO` = 16 (R62). -/
def luiRtField : LuiRtLo → FieldRange 8
  | .bit16 => { lo := 16, hi := 20 }
  | .bit21 => { lo := 21, hi := 25 }

/-- sel of MTC0: bits 3..0 with `MTC0_SEL_HI` = 3, bits 2..0 with `MTC0_SEL_HI` = 2 (R62). -/
def selField : Mtc0SelHi → FieldRange 8
  | .bit2 => { lo := 0, hi := 2 }
  | .bit3 => { lo := 0, hi := 3 }

/-! ## The opcode and the decode_table -/

/-- `opcode = w[31:26]` (R61). -/
def opcodeOf (w : Word) : U8 := readField8 w opcodeField

/-- The decode_table as R72 draws it: eight rows by `opcode[5:3]`, eight columns by `opcode[2:0]`. -/
def decodeRows : List (List (Option Kind)) :=
  [ [none,       none, none, none,      none,       none,      none, none],
    [none,       none, none, none,      some .andi, some .ori, none, some .lui],
    [some .mtc0, none, none, none,      some .beql, none,      none, none],
    [none,       none, none, none,      none,       none,      none, none],
    [none,       none, none, some .lw,  none,       none,      none, none],
    [none,       none, none, none,      none,       none,      none, none],
    [none,       none, none, none,      none,       none,      none, none],
    [none,       none, none, none,      none,       none,      none, none] ]

/-- `decode_table[opcode]` (R21, R72); an index above 63 is no opcode, the spec gives the table no entry there, and
this names no kind: DESIGN CHOICE (log entry 21). -/
def decodeTable (opcode : U8) : Option Kind :=
  ((decodeRows[opcode.toNat / 8]?).getD [])[opcode.toNat % 8]?.getD none

/-! ## The field extractors -/

/-- The values this spec decides for the parameters of R7: `BEQL_SEXT` = false (D3), `LUI_RT_LO` = 21 (D4, C1),
`MTC0_SEL_HI` = 3 (D5, C2). See log entry 6. -/
def decidedParams : Params :=
  { beqlSext := false, luiRtLo := .bit21, mtc0SelHi := .bit3 }

/-- `decode_andi` (R130). -/
def decodeAndi (w : Word) : Instr :=
  .andi (readField8 w rsField) (readField8 w rtField) (readField16 w lowHalfField)

/-- `decode_ori` (R135). -/
def decodeOri (w : Word) : Instr :=
  .ori (readField8 w rsField) (readField8 w rtField) (readField16 w lowHalfField)

/-- `decode_lui` (R140). -/
def decodeLui (p : Params) (w : Word) : Instr :=
  .lui (readField8 w (luiRtField p.luiRtLo)) (readField16 w lowHalfField)

/-- `decode_lw` (R160). -/
def decodeLw (w : Word) : Instr :=
  .lw (readField8 w rsField) (readField8 w rtField) (readField16 w lowHalfField)

/-- `decode_mtc0` (R180). -/
def decodeMtc0 (p : Params) (w : Word) : Instr :=
  .mtc0 (readField8 w rtField) (readField8 w rdField) (readField8 w (selField p.mtc0SelHi))

/-- The BEQL offset from its raw field (R70): zero-extended, not sign-extended, before the 32-bit shift, unless
`BEQL_SEXT` is set. -/
def beqlOffset (sext : Bool) (f : U16) : I32 :=
  if sext then f.signExtend 32 <<< 2 else f.setWidth 32 <<< 2

/-- `decode_beql` (R200). -/
def decodeBeql (p : Params) (w : Word) : Instr :=
  .beql (readField8 w rsField) (readField8 w rtField) (beqlOffset p.beqlSext (readField16 w lowHalfField))

/-! ## The dispatcher -/

/-- The field extractor of a kind (step 3 of R104): one arm per kind. -/
def decodeKind (p : Params) (w : Word) : Kind → Instr
  | .andi => decodeAndi w
  | .ori => decodeOri w
  | .lui => decodeLui p w
  | .lw => decodeLw w
  | .mtc0 => decodeMtc0 p w
  | .beql => decodeBeql p w

/-- `decode` of R104 under a setting of the parameters of R7. -/
def decodeWith (p : Params) (w : Word) : Option Instr :=
  (decodeTable (opcodeOf w)).map (decodeKind p w)

/-- `decode : u32 -> Option(DecodedInstruction)` (R104, R32), at the values this spec decides. -/
def decode (w : Word) : Option Instr := decodeWith decidedParams w

/-- R24 at the values this spec decides. -/
def Instr.wf (i : Instr) : Bool := i.wfUnder decidedParams

/-! ## Words of a byte stream -/

/-- The word of four consecutive bytes, first byte most significant (R42). -/
def wordOfBytes (b0 b1 b2 b3 : Byte) : Word :=
  (b0.setWidth 32 <<< 24) ||| (b1.setWidth 32 <<< 16) ||| (b2.setWidth 32 <<< 8) ||| b3.setWidth 32

/-- The four bytes of a word as the buffer holds them (R42), the lowest offset first. -/
def bytesOfWord (w : Word) : List Byte :=
  [readField8 w { lo := 24, hi := 31 }, readField8 w { lo := 16, hi := 23 }, readField8 w { lo := 8, hi := 15 },
   readField8 w { lo := 0, hi := 7 }]

/-- Why bytes hold no decoded instruction: too few for a word, which the core never observes (R46), or an
unrecognised opcode, named (R73, R301). Neither is an error of the block. -/
inductive NoInstr where
  | partialWord (bytes : Nat)
  | unrecognised (opcode : U8)
deriving DecidableEq, Repr

/-- The decoder on any bytes: the first word's instruction and the bytes after it, or why there is none. -/
def decodeBytes : List Byte → Except NoInstr (Instr × List Byte)
  | b0 :: b1 :: b2 :: b3 :: rest =>
    match decode (wordOfBytes b0 b1 b2 b3) with
    | some i => .ok (i, rest)
    | none => .error (.unrecognised (opcodeOf (wordOfBytes b0 b1 b2 b3)))
  | bytes => .error (.partialWord bytes.length)

/-- The instruction the decoder reads from an instruction whose bits are `w`, numbered as spec/opcode_table.json
numbers them. A request longer than the one instruction length of R60 is no instruction (log entry 15). -/
def decodeTableWord (nbits w : Nat) : Option Instr :=
  if nbits ≤ 32 then
    match decodeBytes (bytesOfWord (BitVec.ofNat 32 (w % 2 ^ nbits))) with
    | .ok (i, _) => some i
    | .error _ => none
  else none

/-! ## The encoder -/

/-- The opcode of each kind (R71). -/
def Kind.opcode : Kind → U8
  | .andi => 0x0C
  | .ori => 0x0D
  | .lui => 0x0F
  | .mtc0 => 0x10
  | .beql => 0x14
  | .lw => 0x23

/-- `w` with the bits of a range replaced by the low bits of `v`, every other bit as it was. -/
def setField {c : Nat} (r : FieldRange c) (v : Word) (w : Word) : Word :=
  (w &&& ~~~(lowMask 32 r.width <<< r.lo)) ||| ((v &&& lowMask 32 r.width) <<< r.lo)

/-- The operand fields of a decoded instruction put at the positions of R62, every other bit copied from `old`. The
raw BEQL field is the offset shifted back down (R106). -/
def setOperands (p : Params) (i : Instr) (old : Word) : Word :=
  match i with
  | .andi rs rt immediate =>
    setField rsField (rs.setWidth 32) (setField rtField (rt.setWidth 32) (setField lowHalfField (immediate.setWidth 32) old))
  | .ori rs rt immediate =>
    setField rsField (rs.setWidth 32) (setField rtField (rt.setWidth 32) (setField lowHalfField (immediate.setWidth 32) old))
  | .lui rt immediate =>
    setField (luiRtField p.luiRtLo) (rt.setWidth 32) (setField lowHalfField (immediate.setWidth 32) old)
  | .lw base rt offset =>
    setField rsField (base.setWidth 32) (setField rtField (rt.setWidth 32) (setField lowHalfField (offset.setWidth 32) old))
  | .mtc0 rt rd sel =>
    setField rtField (rt.setWidth 32) (setField rdField (rd.setWidth 32)
      (setField (selField p.mtc0SelHi) (sel.setWidth 32) old))
  | .beql rs rt offset =>
    setField rsField (rs.setWidth 32) (setField rtField (rt.setWidth 32) (setField lowHalfField (offset >>> 2) old))

/-- The reconstruction of R106: the opcode at bits 31..26, the fields at their positions, ignored bits from `old`. -/
def encodeOver (p : Params) (old : Word) (i : Instr) : Word :=
  setField opcodeField (i.kind.opcode.setWidth 32) (setOperands p i old)

/-- The word of a well-formed instruction, ignored bits zero (log entry 14). Of an ill-formed one, to which the spec gives
no word, each field keeps its low bits (log entry 14). -/
def encode (i : Instr) : Word := encodeOver decidedParams 0 i

end Sys2Proof
end

