-- ==== Sys2Proof/Machine/State.lean ====
section
/-! DEFINITION. The state of the machine: the caller's (spec/20_memory.md, spec/70_reset_and_hazards.md R402). The
block itself holds none (spec/10_state.md R20, R31). -/

namespace Sys2Proof.Machine

/-- The caller's byte buffer (R41) as (offset, byte) pairs. An offset that is not listed has no byte. Its canonical
form, `Memory.wf`, lists the offsets 0, 1, ..., len - 1 in this order. -/
abbrev Memory := List Host.Cell

/-- Where the caller is in the order of R402: before it has loaded the file, or presenting words. -/
inductive Phase where
  | startup
  | running
deriving DecidableEq, Repr

/-- What the caller's input path names (R402): no readable file, or a file with these bytes. -/
inductive InputFile where
  | unavailable
  | contents (bytes : List Byte)
deriving DecidableEq, Repr

/-- The reasons a step stops. The block itself has none (R300). -/
inductive Fault where
  /-- Raised by the caller's start-up when the input file is absent or unreadable: "a fatal startup error (outside
  the core)", no line printed (R304, R402, U9). Safe: the spec gives this stop. -/
  | inputFileUnavailable
  /-- Raised when the caller reads an offset its buffer does not hold. Safe: no run reaches it (R46, R49), and in a
  state no run reaches the machine stops where the spec says nothing (log entry 11). -/
  | absentByte
deriving DecidableEq, Repr

/-- The reasons the model has no meaning for an instruction. -/
inductive Refusal where
  /-- Raised by an arm of exec whose instruction has no meaning yet; no arm is left so. Safe: nothing can be proved
  of a step that is refused. -/
  | notModelled (mnemonic : String)
deriving DecidableEq, Repr

/-- Everything the spec gives the machine that changes. -/
structure State where
  /-- Before or after the file is loaded (R402). -/
  phase      : Phase
  /-- The input file as the outside supplies it (R402, R304). -/
  inputFile  : InputFile
  /-- The byte buffer (R41). -/
  buffer     : Memory
  /-- `WORD_COUNT`, the caller's fixed count (R7, R46), OPEN in the spec (log entry 1). -/
  wordCount  : Nat
  /-- i, the number of the next word to present (R43). -/
  wordNumber : Nat
  /-- The text written to standard output so far (R47, R115). -/
  output     : Text
deriving DecidableEq, Repr

/-- The system before the caller has done anything: nothing supplied, nothing loaded, nothing printed, word 0 next
(R401). The block has nothing to reset (R400). The values are those of log entries 1 and 2. -/
def State.reset : State where
  phase := .startup
  inputFile := .unavailable
  buffer := []
  wordCount := 0
  wordNumber := 0
  output := []

end Sys2Proof.Machine
end

