-- ==== Sys2Proof/Machine/Ops.lean ====
section
/-! DEFINITION. The named operations over the caller's buffer and its bookkeeping (spec/20_memory.md,
spec/70_reset_and_hazards.md R402), and the one effect a word has: its line is written. The spec describes no
exception entry and no return from one (spec/60_exceptions.md R300, R307, R308), so there is no such operation. -/

namespace Sys2Proof.Machine

/-! ## The byte buffer -/

/-- `MemRead(addr, 1)` (R10, R42): the byte at an offset, if the buffer holds it. -/
def Memory.read : Memory → Nat → Option Byte
  | [], _ => none
  | (k, b) :: m, a => if a = k then some b else Memory.read m a

/-- `len`, the buffer's length in bytes (R41). -/
def Memory.len (m : Memory) : Nat := m.length

/-- The bytes of a buffer, the lowest offset first. -/
def Memory.bytes (m : Memory) : List Byte := m.map Prod.snd

/-- Cells for consecutive offsets from `k` on. -/
def Memory.cellsFrom : Nat → List Byte → Memory
  | _, [] => []
  | k, b :: bs => (k, b) :: Memory.cellsFrom (k + 1) bs

/-- A buffer that holds these bytes at the offsets 0, 1, 2, ... (R41). -/
def Memory.ofBytes (bs : List Byte) : Memory := Memory.cellsFrom 0 bs

/-- The canonical form: the listed offsets are exactly 0 to len - 1, strictly rising (R41). An unlisted offset has no
byte, so no entry equals what one reads as. -/
def Memory.wf (m : Memory) : Bool := decide (m.map Prod.fst = List.range m.length)

/-- A buffer with `bs` at the offsets from `a` on, every other byte as it was; bytes missing below `a` are zero (log
entry 18). Only the outside places bytes (`State.withFetchWord`); nothing in the machine does (R53). -/
def Memory.place (m : Memory) (a : Nat) (bs : List Byte) : Memory :=
  let old := m.bytes
  Memory.ofBytes
    (old.take a ++ List.replicate (a - old.length) 0 ++ bs ++ old.drop (a + bs.length))

/-- `word_i` (R42, R43): the big-endian word at byte offset 4*i, if the buffer holds its four bytes. -/
def Memory.wordAt (m : Memory) (i : Nat) : Option Word :=
  match m.read (4 * i), m.read (4 * i + 1), m.read (4 * i + 2), m.read (4 * i + 3) with
  | some b0, some b1, some b2, some b3 => some (wordOfBytes b0 b1 b2 b3)
  | _, _, _, _ => none

/-! ## The caller's bookkeeping -/

/-- `n = min(WORD_COUNT, floor(len / 4))` (R46). -/
def State.wordsToProcess (s : State) : Nat := min s.wordCount (s.buffer.len / 4)

/-- Is there a word left to present (R46)? -/
def State.hasWord (s : State) : Bool := decide (s.wordNumber < s.wordsToProcess)

/-- The word of the next decode transaction (R43). -/
def State.fetch (s : State) : Option Word := s.buffer.wordAt s.wordNumber

/-- On to the next word: "increasing order with no gaps and no overlap" (R43). -/
def State.advance (s : State) : State := { s with wordNumber := s.wordNumber + 1 }

/-- LF, the terminator the caller adds to each line (R47, R115, D8). -/
def lineTerminator : Char := '\n'

/-- The caller writes a line and its terminator, and nothing else (R47, R115). -/
def State.printLine (line : Text) (s : State) : State :=
  { s with output := s.output ++ line ++ [lineTerminator] }

/-- The caller's start-up (R402): the file becomes the buffer, and word 0 is the next word (R43, R401); a file that is
absent or unreadable is fatal, and no line is printed (R304). -/
def State.loadInputFile (s : State) : Host.Outcome State Fault Refusal :=
  match s.inputFile with
  | .contents bs =>
    .next { s with phase := .running, buffer := Memory.ofBytes bs, wordNumber := 0 }
  | .unavailable => .fault .inputFileUnavailable

/-- `s` with the word `w` where the caller takes its next word from: the buffer loaded and holding the word at offset
4*i, and the count letting word i be presented. -/
def State.placeNextWord (s : State) (w : Word) : State :=
  { s with
    phase := .running
    buffer := s.buffer.place (4 * s.wordNumber) (bytesOfWord w)
    wordCount := max s.wordCount (s.wordNumber + 1) }

end Sys2Proof.Machine
end

