-- ==== Sys2Proof/Machine/Branch.lean ====
section
/-! DEFINITION. The branch family (spec/44_branch.md): the formatter and the meaning of BEQL. Its offset is resolved to
no target, and the word after it is presented next like any other (R202). -/

namespace Sys2Proof.Machine

/-- `format(Beql)` (R201): `beql r<rs>, r<rt>, <offset-hex>`, rs first, the byte offset and not the raw field. -/
def formatBeql (rs rt : U8) (offset : I32) : Text :=
  lineText ['b', 'e', 'q', 'l'] [gprOperand rs, gprOperand rt, hexI32 offset]

/-- BEQL (R200, R201, R202). -/
def execBeql (rs rt : U8) (offset : I32) (s : State) : Host.Outcome State Fault Refusal :=
  .next (s.printLine (formatBeql rs rt offset))

end Sys2Proof.Machine
end

