-- ==== Sys2Proof/Machine/Coprocessor.lean ====
section
/-! DEFINITION. The coprocessor family (spec/43_coprocessor.md): the formatter and the meaning of MTC0, which is decoded
and printed without any privilege check and never performed (R27, R309). -/

namespace Sys2Proof.Machine

/-- `format(Mtc0)` (R181): `mtc0 r<rt>, c<rd>, <sel-hex>`. -/
def formatMtc0 (rt rd sel : U8) : Text :=
  lineText ['m', 't', 'c', '0'] [gprOperand rt, cprOperand rd, hex sel.toNat]

/-- MTC0 (R180, R181). -/
def execMtc0 (rt rd sel : U8) (s : State) : Host.Outcome State Fault Refusal :=
  .next (s.printLine (formatMtc0 rt rd sel))

end Sys2Proof.Machine
end

