-- ==== Sys2Proof/Machine/Immediate.lean ====
section
/-! DEFINITION. The immediate family (spec/41_immediate.md): the formatters and the meanings of ANDI, ORI and LUI. The
meaning of a decoded instruction is the effect the spec gives it: its line is written. No register is read or written
(R5, R20). -/

namespace Sys2Proof.Machine

/-- `format(Andi)` (R131): `andi r<rt>, r<rs>, <immediate-hex>`. -/
def formatAndi (rs rt : U8) (immediate : U16) : Text :=
  lineText ['a', 'n', 'd', 'i'] [gprOperand rt, gprOperand rs, hex immediate.toNat]

/-- ANDI (R130, R131). -/
def execAndi (rs rt : U8) (immediate : U16) (s : State) : Host.Outcome State Fault Refusal :=
  .next (s.printLine (formatAndi rs rt immediate))

/-- `format(Ori)` (R136): `ori r<rt>, r<rs>, <immediate-hex>`. -/
def formatOri (rs rt : U8) (immediate : U16) : Text :=
  lineText ['o', 'r', 'i'] [gprOperand rt, gprOperand rs, hex immediate.toNat]

/-- ORI (R135, R136). -/
def execOri (rs rt : U8) (immediate : U16) (s : State) : Host.Outcome State Fault Refusal :=
  .next (s.printLine (formatOri rs rt immediate))

/-- `format(Lui)` (R141): `lui r<rt>, <immediate-hex>`; the immediate is the raw field, not shifted. -/
def formatLui (rt : U8) (immediate : U16) : Text :=
  lineText ['l', 'u', 'i'] [gprOperand rt, hex immediate.toNat]

/-- LUI (R140, R141). -/
def execLui (rt : U8) (immediate : U16) (s : State) : Host.Outcome State Fault Refusal :=
  .next (s.printLine (formatLui rt immediate))

end Sys2Proof.Machine
end

