-- ==== Sys2Proof/Machine/Load.lean ====
section
/-! DEFINITION. The load family (spec/42_load.md): the formatter and the meaning of LW. "The printed line is the only
effect of an LW word" (R162): no effective address, no memory read, no alignment check. -/

namespace Sys2Proof.Machine

/-- `format(Lw)` (R161): `lw r<rt>, <offset-decimal>(<base>)`, the base with no prefix (C4). -/
def formatLw (base rt : U8) (offset : U16) : Text :=
  lineText ['l', 'w'] [gprOperand rt, memOperand offset base]

/-- LW (R160, R161, R162). -/
def execLw (base rt : U8) (offset : U16) (s : State) : Host.Outcome State Fault Refusal :=
  .next (s.printLine (formatLw base rt offset))

end Sys2Proof.Machine
end

