-- ==== Sys2Proof/Machine/Line.lean ====
section
/-! DEFINITION. The formatter over all variants, the fallback and the line of a word (spec/40_dispatch.md R107, R108,
R113, R114), and the meaning of a word with an unrecognised opcode (spec/60_exceptions.md R301). -/

namespace Sys2Proof.Machine

/-- `format : DecodedInstruction -> Text` (R107): one arm per variant and no catch-all (R108). Total over every value of
the field types. -/
def format : Instr → Text
  | .andi rs rt immediate => formatAndi rs rt immediate
  | .ori rs rt immediate => formatOri rs rt immediate
  | .lui rt immediate => formatLui rt immediate
  | .lw base rt offset => formatLw base rt offset
  | .mtc0 rt rd sel => formatMtc0 rt rd sel
  | .beql rs rt offset => formatBeql rs rt offset

/-- `fallback(op) = bin6(op) ++ " " ++ hex(op)` (R113): the opcode only. DESIGN CHOICE (log entry 21): the spec defines
fallback on 0..63 only (R32, R113); of a u8 above 63, which no word leads to, this writes the low six bits in binary and
the whole 8-bit value in hexadecimal. Unsafe for a claim about such a value, and none is stated. -/
def fallback (op : U8) : Text := bin6 op ++ [' '] ++ hex op.toNat

/-- `line(w)` of R114 under a setting of the parameters of R7. -/
def lineWith (p : Params) (w : Word) : Text :=
  match decodeWith p w with
  | some i => format i
  | none => fallback (opcodeOf w)

/-- `line : u32 -> Text` (R114, R32), at the values this spec decides. -/
def line (w : Word) : Text := lineWith decidedParams w

/-- A word with an unrecognised opcode: its fallback line is written; a result, not an exception (R301). -/
def execUnrecognised (opcode : U8) (s : State) : Host.Outcome State Fault Refusal :=
  .next (s.printLine (fallback opcode))

end Sys2Proof.Machine
end

