-- ==== Sys2Proof/Machine/Dispatch.lean ====
section
/-! DEFINITION. One arm per decoded instruction, each one call of its meaning. -/

namespace Sys2Proof.Machine

/-- What a decoded instruction does: its line is written (spec/40_dispatch.md R107, R114). -/
def exec (i : Instr) (s : State) : Host.Outcome State Fault Refusal :=
  match i with
  | .andi rs rt immediate => Sys2Proof.Machine.execAndi rs rt immediate s
  | .ori rs rt immediate => Sys2Proof.Machine.execOri rs rt immediate s
  | .lui rt immediate => Sys2Proof.Machine.execLui rt immediate s
  | .lw base rt offset => Sys2Proof.Machine.execLw base rt offset s
  | .mtc0 rt rd sel => Sys2Proof.Machine.execMtc0 rt rd sel s
  | .beql rs rt offset => Sys2Proof.Machine.execBeql rs rt offset s

end Sys2Proof.Machine
end

