-- ==== Sys2Proof/Machine/Step.lean ====
section
/-! DEFINITION. One step of the machine: the caller's start-up, or one decode transaction (spec/70_reset_and_hazards.md
R402, R404; spec/40_dispatch.md R114, R115), or, after the last word, nothing (log entry 4). -/

namespace Sys2Proof.Machine

/-- The decode transaction of one word (R104, R114): a recognised word does what its decoded instruction does, any other
word prints its fallback line. -/
def transact (w : Word) (s : State) : Host.Outcome State Fault Refusal :=
  match decode w with
  | some i => exec i s
  | none => execUnrecognised (opcodeOf w) s

/-- One step. While words remain (R46) the caller takes the next one, counts it, and has it decoded and printed. -/
def step (s : State) : Host.Outcome State Fault Refusal :=
  match s.phase with
  | .startup => s.loadInputFile
  | .running =>
    if s.hasWord then
      match s.fetch with
      | some w => transact w s.advance
      | none => .fault .absentByte
    else .next s

/-- `s` with the instruction whose bits are `w` (numbered as spec/opcode_table.json numbers them) placed where the next
step takes its word from (log entry 3). -/
def State.withFetchWord (s : State) (nbits w : Nat) : State :=
  s.placeNextWord (BitVec.ofNat 32 (w % 2 ^ nbits))

end Sys2Proof.Machine
end

