-- ==== Sys2Proof/Machine/Flags.lean ====
section
/-! DEFINITION. The block has no flags, condition codes or predicates, and no decoded instruction writes any
(spec/10_state.md R29). The one single-bit outcome the spec names is the port `hit` (R33), which is computed here. -/

namespace Sys2Proof.Machine

/-- `hit` (R33): 1 when `decode(word)` is `Some`, 0 when it is `None`. -/
def hit (w : Word) : Bool := (decode w).isSome

end Sys2Proof.Machine
end

