-- ==== Sys2Proof/Machine/Ports.lean ====
section
/-! DEFINITION. The port view of the block (spec/10_state.md R33): every port read off `decode(word)` or `line(word)`.
A port that the word does not drive carries a free value (U3, log entry 7). -/

namespace Sys2Proof.Machine

/-- The output ports of R33. -/
structure Ports where
  hit    : Bool
  kind   : BitVec 3
  opcode : BitVec 6
  fRs    : BitVec 5
  fRt    : BitVec 5
  fRd    : BitVec 5
  fBase  : BitVec 5
  fImm   : BitVec 16
  fSel   : BitVec 4
  fOff   : BitVec 32
  text   : Text
deriving DecidableEq, Repr

/-- The `kind` codes of R33 (D18). -/
def kindCode : Kind → BitVec 3
  | .andi => 0
  | .ori => 1
  | .lui => 2
  | .lw => 3
  | .mtc0 => 4
  | .beql => 5

/-- The outputs of a word with no decoded instruction: only `hit`, `opcode` and `text` are driven (R33). -/
def idlePorts (w : Word) : Ports where
  hit := hit w
  kind := Config.undrivenKind w
  opcode := (opcodeOf w).setWidth 6
  fRs := Config.undrivenRs w
  fRt := Config.undrivenRt w
  fRd := Config.undrivenRd w
  fBase := Config.undrivenBase w
  fImm := Config.undrivenImm w
  fSel := Config.undrivenSel w
  fOff := Config.undrivenOff w
  text := line w

/-- The ports a decoded instruction drives beside those every word drives (R33): its kind and its fields. -/
def driveFields (i : Instr) (p : Ports) : Ports :=
  match i with
  | .andi rs rt immediate =>
    { p with kind := kindCode .andi, fRs := rs.setWidth 5, fRt := rt.setWidth 5, fImm := immediate }
  | .ori rs rt immediate =>
    { p with kind := kindCode .ori, fRs := rs.setWidth 5, fRt := rt.setWidth 5, fImm := immediate }
  | .lui rt immediate => { p with kind := kindCode .lui, fRt := rt.setWidth 5, fImm := immediate }
  | .lw base rt offset =>
    { p with kind := kindCode .lw, fBase := base.setWidth 5, fRt := rt.setWidth 5, fImm := offset }
  | .mtc0 rt rd sel =>
    { p with kind := kindCode .mtc0, fRt := rt.setWidth 5, fRd := rd.setWidth 5, fSel := sel.setWidth 4 }
  | .beql rs rt offset =>
    { p with kind := kindCode .beql, fRs := rs.setWidth 5, fRt := rt.setWidth 5, fOff := offset }

/-- The output ports for the input `word` (R33). -/
def ports (w : Word) : Ports :=
  match decode w with
  | some i => driveFields i (idlePorts w)
  | none => idlePorts w

end Sys2Proof.Machine
end

