-- ==== Sys2Proof/Safety.lean ====
section
/-! DEFINITION. What counts as a good run, in the terms the claims use: the output the spec gives a run
(spec/40_dispatch.md R115), the invariant of the machine's states, and the characters a line may hold. -/

namespace Sys2Proof.Machine

/-- The complete output of a run over these bytes with this `WORD_COUNT` (R115), written down from the byte stream alone:
the line and the terminator of each whole word, while the count lasts. It names no step and no state. -/
def runOutput : Nat → List Byte → Text
  | count + 1, b0 :: b1 :: b2 :: b3 :: rest =>
    line (wordOfBytes b0 b1 b2 b3) ++ '\n' :: runOutput count rest
  | _, _ => []

/-- The invariant of every state a run reaches. Before the load nothing has been presented or printed; after it the
buffer is in its canonical form, no more than n words have been presented (R46), and the output is exactly the lines of
the words before the next one (R47, R115). -/
def State.Inv (s : State) : Prop :=
  s.buffer.wf = true ∧
  (s.phase = .startup → s.wordNumber = 0 ∧ s.output = []) ∧
  (s.phase = .running →
    s.wordNumber ≤ s.wordsToProcess ∧ s.output = runOutput s.wordNumber s.buffer.bytes)

/-- `s` is about to present the word `w`: it has loaded its file, a word remains, and `w` is that word (R43, R46). -/
def State.Presents (s : State) (w : Word) : Prop :=
  s.phase = .running ∧ s.hasWord = true ∧ s.fetch = some w

/-- The value of `width` bits of a word from bit `lo` up, by arithmetic alone (R8): what `w[lo+width-1:lo]` stands for,
said without the extractor. -/
def wordField (w : Word) (lo width : Nat) : Nat := w.toNat / 2 ^ lo % 2 ^ width

/-- Two words that agree in every bit outside these ranges, each given by its low and its high bit. -/
def AgreeOutside (ranges : List (Nat × Nat)) (w v : Word) : Prop :=
  ∀ k, k < 32 → (∀ r ∈ ranges, ¬ (r.1 ≤ k ∧ k ≤ r.2)) → w.getLsbD k = v.getLsbD k

/-- A printable ASCII character: what a line is made of (R9, R112). -/
def isPrintableAscii (c : Char) : Bool := decide (32 ≤ c.toNat) && decide (c.toNat ≤ 126)

/-- The value of a digit character as R110 and R111 spell digits: 0 to 9, then lowercase a to f. -/
def digitValue (c : Char) : Option Nat :=
  if 48 ≤ c.toNat ∧ c.toNat ≤ 57 then some (c.toNat - 48)
  else if 97 ≤ c.toNat ∧ c.toNat ≤ 102 then some (c.toNat - 87)
  else none

/-- The number that digits stand for in a base, most significant first, above what has been read already; no number if a
character is no digit of the base. -/
def readDigits (base : Nat) : Nat → Text → Option Nat
  | acc, [] => some acc
  | acc, c :: t =>
    match digitValue c with
    | some d => if d < base then readDigits base (base * acc + d) t else none
    | none => none

/-- The number a numeral stands for: one digit or more, no leading zero (R110, R111). -/
def readNumeral (base : Nat) : Text → Option Nat
  | [] => none
  | ['0'] => some 0
  | '0' :: _ => none
  | t => readDigits base 0 t

end Sys2Proof.Machine
end

