-- ==== Sys2Proof/Certificates/Slice0/Obligations.lean ====
section
/-! DEFINITION. The statements about the machine. Each docstring names the rules of spec/ it rests on; where a clause is
the model's own choice it names the log entry. -/

open Sys2Proof Sys2Proof.Machine

/-! ## The extractor -/

/-- R100: within its precondition the extractor answers the bits lo..hi of the value, shifted down to bit 0, in the
smallest of the containers 8, 16, 32, 64 that holds them. The value is any u8, u16, u32 or u64 (R9). -/
def Obligations.ExtractorReturnsTheRange : Prop :=
  ∀ (n : Nat) (v : BitVec n) (lo hi : Nat), n ∈ [8, 16, 32, 64] → lo ≤ hi → hi < n →
    ∃ r, extract v lo hi = .ok r ∧
      r.toNat = v.toNat / 2 ^ lo % 2 ^ (hi - lo + 1) ∧
      containerBits (hi - lo + 1) ∈ [8, 16, 32, 64] ∧
      hi - lo + 1 ≤ containerBits (hi - lo + 1) ∧
      ∀ m ∈ [8, 16, 32, 64], hi - lo + 1 ≤ m → containerBits (hi - lo + 1) ≤ m

/-- R101: the extractor, and each of its two fixed entry points (R102), refuses exactly the requests outside the
precondition as contract violations, and every range the decoder uses (R62 and the opcode's, R61) is within it: what the
decoder reads there is what the entry point answers. -/
def Obligations.ExtractorRefusesOutOfRange : Prop :=
  (∀ (n : Nat) (v : BitVec n) (lo hi : Nat),
    extract v lo hi = .error .contractViolation ↔ ¬ (lo ≤ hi ∧ hi < n)) ∧
  (∀ (w : Word) (lo hi : Nat),
    (extract8 w lo hi = .error .contractViolation ↔ ¬ (lo ≤ hi ∧ hi < 32)) ∧
    (extract16 w lo hi = .error .contractViolation ↔ ¬ (lo ≤ hi ∧ hi < 32))) ∧
  ∀ w : Word,
    (∀ range ∈ [(26, 31), (21, 25), (16, 20), (11, 15), (0, 3), (0, 15)], ∃ r, extract w range.1 range.2 = .ok r) ∧
    extract8 w 26 31 = .ok (readField8 w opcodeField) ∧ extract8 w 21 25 = .ok (readField8 w rsField) ∧
    extract8 w 16 20 = .ok (readField8 w rtField) ∧ extract8 w 11 15 = .ok (readField8 w rdField) ∧
    extract8 w 21 25 = .ok (readField8 w (luiRtField decidedParams.luiRtLo)) ∧
    extract8 w 0 3 = .ok (readField8 w (selField decidedParams.mtc0SelHi)) ∧
    extract16 w 0 15 = .ok (readField16 w lowHalfField)

/-- R103: the whole range 0..31 of a word is the word, in a 32-bit container; one bit is 0 or 1, in an 8-bit container. -/
def Obligations.ExtractorBoundaryRanges : Prop :=
  (∀ w : Word, containerBits (31 - 0 + 1) = 32 ∧ ∃ r, extract w 0 31 = .ok r ∧ r.toNat = w.toNat) ∧
  ∀ (w : Word) (k : Nat), k < 32 →
    containerBits (k - k + 1) = 8 ∧
    ∃ r, extract w k k = .ok r ∧ r.toNat = if w.getLsbD k then 1 else 0

/-- R102: the two entry points the decoder uses are instances of the extractor: on a range of at most 8 bits, and on a
range of at most 16. A wider range they refuse by a name of its own: the model's choice (log entry 22). -/
def Obligations.EntryPointsAgreeWithExtractor : Prop :=
  ∀ (w : Word) (lo hi : Nat), lo ≤ hi → hi < 32 →
    (hi - lo + 1 ≤ 8 → ∃ r r8, extract w lo hi = .ok r ∧ extract8 w lo hi = .ok r8 ∧ r8.toNat = r.toNat) ∧
    (hi - lo + 1 ≤ 16 → ∃ r r16, extract w lo hi = .ok r ∧ extract16 w lo hi = .ok r16 ∧ r16.toNat = r.toNat) ∧
    (8 < hi - lo + 1 → extract8 w lo hi = .error .widerThanContainer) ∧
    (16 < hi - lo + 1 → extract16 w lo hi = .error .widerThanContainer)

/-! ## The decode_table and the dispatcher -/

/-- R71, R72: the 64 entries of the decode_table, six of which name a kind. -/
def Obligations.DecodeTableNamesSixKinds : Prop :=
  ∀ op : U8, op.toNat < 64 →
    decodeTable op =
      if op.toNat = 0x0C then some .andi
      else if op.toNat = 0x0D then some .ori
      else if op.toNat = 0x0F then some .lui
      else if op.toNat = 0x10 then some .mtc0
      else if op.toNat = 0x14 then some .beql
      else if op.toNat = 0x23 then some .lw
      else none

/-- R73, R75, R113: every word whose opcode is one of the six decodes to one instruction; every other word decodes to no
instruction, and its line is its opcode in binary and in hexadecimal. -/
def Obligations.DecodeIsTotalOverTheOpcodes : Prop :=
  ∀ w : Word,
    (wordField w 26 6 ∈ [0x0C, 0x14, 0x0F, 0x23, 0x10, 0x0D] → ∃ i, decode w = some i) ∧
    (wordField w 26 6 ∉ [0x0C, 0x14, 0x0F, 0x23, 0x10, 0x0D] →
      decode w = none ∧
      ∃ b, b.length = 6 ∧ readDigits 2 0 b = some (wordField w 26 6) ∧
        line w = b ++ " ".toList ++ hex (wordField w 26 6))

/-- R130, R135, R140: the decoded value of every ANDI, ORI and LUI word, LUI's rt from bits 25..21. -/
def Obligations.ImmediateWordsDecode : Prop :=
  ∀ w : Word,
    (wordField w 26 6 = 0x0C → ∃ rs rt immediate, decode w = some (.andi rs rt immediate) ∧
      rs.toNat = wordField w 21 5 ∧ rt.toNat = wordField w 16 5 ∧ immediate.toNat = wordField w 0 16) ∧
    (wordField w 26 6 = 0x0D → ∃ rs rt immediate, decode w = some (.ori rs rt immediate) ∧
      rs.toNat = wordField w 21 5 ∧ rt.toNat = wordField w 16 5 ∧ immediate.toNat = wordField w 0 16) ∧
    (wordField w 26 6 = 0x0F → ∃ rt immediate, decode w = some (.lui rt immediate) ∧
      rt.toNat = wordField w 21 5 ∧ immediate.toNat = wordField w 0 16)

/-- R160, R180: the decoded value of every LW and MTC0 word; the LW offset is unsigned, MTC0's sel is bits 3..0. -/
def Obligations.LoadAndCoprocessorWordsDecode : Prop :=
  ∀ w : Word,
    (wordField w 26 6 = 0x23 → ∃ base rt offset, decode w = some (.lw base rt offset) ∧
      base.toNat = wordField w 21 5 ∧ rt.toNat = wordField w 16 5 ∧ offset.toNat = wordField w 0 16) ∧
    (wordField w 26 6 = 0x10 → ∃ rt rd sel, decode w = some (.mtc0 rt rd sel) ∧
      rt.toNat = wordField w 16 5 ∧ rd.toNat = wordField w 11 5 ∧ sel.toNat = wordField w 0 4)

/-- R200, R70: the decoded value of every BEQL word. The offset is four times the raw field, never negative, at most
262140; its bits 31..18 and 1..0 are 0 and its bits 17..2 are the field. -/
def Obligations.BranchWordsDecode : Prop :=
  ∀ w : Word, wordField w 26 6 = 0x14 →
    ∃ rs rt offset, decode w = some (.beql rs rt offset) ∧
      rs.toNat = wordField w 21 5 ∧ rt.toNat = wordField w 16 5 ∧
      offset.toInt = 4 * (wordField w 0 16 : Int) ∧ 0 ≤ offset.toInt ∧ offset.toInt ≤ 262140 ∧
      ∀ k, offset.getLsbD k = (decide (2 ≤ k ∧ k ≤ 17) && w.getLsbD (k - 2))

/-- R7, R62, R70 (the alternatives of D3, D4 and D5): with the parameters at their other values LUI's rt is bits 20..16,
MTC0's sel is bits 2..0, and the BEQL offset is four times the field read as a signed number. Not this spec's values; the
test vectors' alternative columns. -/
def Obligations.AlternativeParametersDecode : Prop :=
  ∀ w : Word,
    (wordField w 26 6 = 0x0F → ∀ p : Params, p.luiRtLo = .bit16 →
      ∃ rt immediate, decodeWith p w = some (.lui rt immediate) ∧
        rt.toNat = wordField w 16 5 ∧ immediate.toNat = wordField w 0 16) ∧
    (wordField w 26 6 = 0x10 → ∀ p : Params, p.mtc0SelHi = .bit2 →
      ∃ rt rd sel, decodeWith p w = some (.mtc0 rt rd sel) ∧
        rt.toNat = wordField w 16 5 ∧ rd.toNat = wordField w 11 5 ∧ sel.toNat = wordField w 0 3) ∧
    (wordField w 26 6 = 0x14 → ∀ p : Params, p.beqlSext = true →
      ∃ rs rt offset, decodeWith p w = some (.beql rs rt offset) ∧
        rs.toNat = wordField w 21 5 ∧ rt.toNat = wordField w 16 5 ∧
        offset.toInt =
          4 * ((wordField w 0 16 : Int) - if wordField w 0 16 < 2 ^ 15 then 0 else 2 ^ 16))

/-- R24: the values of a decoded instruction the block produces. -/
def Obligations.DecodedValuesMeetTheirInvariants : Prop :=
  ∀ w : Word,
    (∀ rs rt immediate, decode w = some (.andi rs rt immediate) → rs.toNat ≤ 31 ∧ rt.toNat ≤ 31 ∧
      immediate.toNat ≤ 65535) ∧
    (∀ rs rt immediate, decode w = some (.ori rs rt immediate) → rs.toNat ≤ 31 ∧ rt.toNat ≤ 31 ∧
      immediate.toNat ≤ 65535) ∧
    (∀ rt immediate, decode w = some (.lui rt immediate) → rt.toNat ≤ 31 ∧ immediate.toNat ≤ 65535) ∧
    (∀ base rt offset, decode w = some (.lw base rt offset) → base.toNat ≤ 31 ∧ rt.toNat ≤ 31 ∧
      offset.toNat ≤ 65535) ∧
    (∀ rt rd sel, decode w = some (.mtc0 rt rd sel) → rt.toNat ≤ 31 ∧ rd.toNat ≤ 31 ∧ sel.toNat ≤ 15) ∧
    (∀ rs rt offset, decode w = some (.beql rs rt offset) → rs.toNat ≤ 31 ∧ rt.toNat ≤ 31 ∧
      offset.toInt % 4 = 0 ∧ 0 ≤ offset.toInt ∧ offset.toInt ≤ 262140)

/-- R24: the invariants are exact: an instruction meets them if and only if some word decodes to it, whatever setting the
parameters of R7 have. "A decoded instruction outside these invariants is never produced". -/
def Obligations.WellFormedIffSomeWordDecodesToIt : Prop :=
  ∀ (p : Params) (i : Instr), i.wfUnder p = true ↔ ∃ w, decodeWith p w = some i

/-- Decode and encode agree on every well-formed instruction, at every operand value and under every setting of the
parameters of R7, over any ignored bits; and so does the decoder of this spec on the words the encoder writes. -/
def Obligations.DecodeOfEncodeIsTheInstruction : Prop :=
  (∀ (p : Params) (old : Word) (i : Instr), i.wfUnder p = true → decodeWith p (encodeOver p old i) = some i) ∧
  ∀ i : Instr, i.wf = true → decode (encode i) = some i

/-- R106: the word rebuilt from the fields its decoded instruction holds, other bits at their original values, is the
word; the raw BEQL field is the offset shifted back down. -/
def Obligations.RebuildingFromTheFieldsGivesTheWord : Prop :=
  (∀ (w : Word) (i : Instr), decode w = some i → encodeOver decidedParams w i = w) ∧
  ∀ (w : Word) (rs rt : U8) (offset : I32), decode w = some (.beql rs rt offset) →
    (offset >>> 2).toNat = wordField w 0 16

/-- R68: bits in no field of the opcode at hand change neither the decoded value nor the line: bits 20..16 of a LUI word,
bits 25..21 and 10..4 of an MTC0 word, every bit but the opcode's of an unrecognised word. -/
def Obligations.IgnoredBitsChangeNothing : Prop :=
  ∀ w v : Word,
    (wordField w 26 6 = 0x0F → AgreeOutside [(16, 20)] w v → decode w = decode v ∧ line w = line v) ∧
    (wordField w 26 6 = 0x10 → AgreeOutside [(21, 25), (4, 10)] w v → decode w = decode v ∧ line w = line v) ∧
    (decode w = none → AgreeOutside [(0, 25)] w v → decode w = decode v ∧ line w = line v)

/-- R74: dispatch reads the opcode field only: two words with the same opcode decode to the same kind, or both to none, and
no field value is rejected: every word with opcode 0x10 decodes to an Mtc0, every word with opcode 0x0F to a Lui. -/
def Obligations.OpcodeAloneChoosesTheKind : Prop :=
  (∀ w v : Word, wordField w 26 6 = wordField v 26 6 → (decode w).map Instr.kind = (decode v).map Instr.kind) ∧
  (∀ w : Word, wordField w 26 6 = 0x10 → (decode w).map Instr.kind = some .mtc0) ∧
  ∀ w : Word, wordField w 26 6 = 0x0F → (decode w).map Instr.kind = some .lui

/-- Words written out from the encodings of R63 to R67 decode to the instructions they stand for, and a fence word and a
trap-return word of the decoded ISA are only words (R51, R308). -/
def Obligations.WrittenOutWordsDecode : Prop :=
  decode 0b00110000101000010000000000000101#32 = some (.andi 5 1 5) ∧
  decode 0b00110100101000011010101111001101#32 = some (.ori 5 1 0xABCD) ∧
  decode 0b00111100001010000000000000001000#32 = some (.lui 1 8) ∧
  decode 0b10001100001000110000000000010000#32 = some (.lw 1 3 16) ∧
  decode 0b01000000100011000110000000000000#32 = some (.mtc0 12 12 0) ∧
  decode 0b01010000001000101111111111111111#32 = some (.beql 1 2 262140) ∧
  decode 0x0000000F#32 = none ∧
  decode 0x42000018#32 = some (.mtc0 0 0 8)

/-! ## The renderings -/

/-- R111: `dec(v)` is the one decimal numeral of v: a text reads as v in base 10, without a leading zero, exactly if it is
`dec(v)`. -/
def Obligations.DecIsTheDecimalNumeral : Prop :=
  ∀ (v : Nat) (t : Text), readNumeral 10 t = some v ↔ t = dec v

/-- R110: `hex(v)` is `0x` and the one lowercase hexadecimal numeral of v; of an `i32` below 0 it is the numeral of the
32-bit two's-complement pattern. -/
def Obligations.HexIsThePrefixedNumeral : Prop :=
  (∀ (v : Nat) (t : Text), t = hex v ↔ ∃ d, t = '0' :: 'x' :: d ∧ readNumeral 16 d = some v) ∧
  ∀ v : I32, hexI32 v = hex (if v.toInt < 0 then v.toInt + 2 ^ 32 else v.toInt).toNat

/-- R113: the fallback line of an opcode is its six binary digits, a space and its hexadecimal rendering. -/
def Obligations.FallbackIsTheOpcodeInBinaryAndHex : Prop :=
  ∀ op : U8, op.toNat < 64 →
    ∃ b, b.length = 6 ∧ readDigits 2 0 b = some op.toNat ∧ fallback op = b ++ " ".toList ++ hex op.toNat

/-- R9, R107, R112: every decoded instruction, whatever its field values, renders as printable ASCII characters with no
space at either end, and so does the line of every word; none holds a line terminator. -/
def Obligations.LinesArePrintableAscii : Prop :=
  (∀ (i : Instr), (∀ c ∈ format i, isPrintableAscii c = true ∧ c ≠ '\n') ∧
    ∃ first middle last, format i = first :: middle ++ [last] ∧ first ≠ ' ' ∧ last ≠ ' ') ∧
  ∀ (w : Word), (∀ c ∈ line w, isPrintableAscii c = true ∧ c ≠ '\n') ∧
    ∃ first middle last, line w = first :: middle ++ [last] ∧ first ≠ ' ' ∧ last ≠ ' '

/-- No two decoded instructions, whatever their field values, render as the same line: the formatter loses nothing of
what was decoded. A consequence of the templates of R131 to R201 and of R110, R111 together. -/
def Obligations.FormatIsInjective : Prop :=
  ∀ i j : Instr, format i = format j → i = j

/-- The line of a word tells its opcode and its decoded value: words with the same line decode alike, and no fallback line
is the line of a recognised word. -/
def Obligations.LineTellsTheDecodedValue : Prop :=
  ∀ w v : Word, line w = line v → decode w = decode v ∧ wordField w 26 6 = wordField v 26 6

/-! ## What the instructions do -/

/-- R131, R136, R141: ANDI, ORI and LUI complete in every state, with every field value, and their one effect is their
line. -/
def Obligations.ImmediateInstructionsPrintTheirLines : Prop :=
  (∀ (rs rt : U8) (immediate : U16) (s : State), exec (.andi rs rt immediate) s =
    .next { s with output := s.output ++ ("andi r".toList ++ dec rt.toNat ++ ", r".toList ++ dec rs.toNat ++
      ", ".toList ++ hex immediate.toNat) ++ ['\n'] }) ∧
  (∀ (rs rt : U8) (immediate : U16) (s : State), exec (.ori rs rt immediate) s =
    .next { s with output := s.output ++ ("ori r".toList ++ dec rt.toNat ++ ", r".toList ++ dec rs.toNat ++
      ", ".toList ++ hex immediate.toNat) ++ ['\n'] }) ∧
  ∀ (rt : U8) (immediate : U16) (s : State), exec (.lui rt immediate) s =
    .next { s with output := s.output ++ ("lui r".toList ++ dec rt.toNat ++ ", ".toList ++
      hex immediate.toNat) ++ ['\n'] }

/-- R161, R162: LW completes in every state, with every field value; its line, with the offset in decimal and the base
without a prefix, is its only effect. -/
def Obligations.LoadPrintsItsLine : Prop :=
  ∀ (base rt : U8) (offset : U16) (s : State), exec (.lw base rt offset) s =
    .next { s with output := s.output ++ ("lw r".toList ++ dec rt.toNat ++ ", ".toList ++ dec offset.toNat ++
      "(".toList ++ dec base.toNat ++ ")".toList) ++ ['\n'] }

/-- R181: MTC0 completes in every state, with every field value, without a check of any mode; its one effect is its line. -/
def Obligations.CoprocessorMovePrintsItsLine : Prop :=
  ∀ (rt rd sel : U8) (s : State), exec (.mtc0 rt rd sel) s =
    .next { s with output := s.output ++ ("mtc0 r".toList ++ dec rt.toNat ++ ", c".toList ++ dec rd.toNat ++
      ", ".toList ++ hex sel.toNat) ++ ['\n'] }

/-- R201: BEQL completes in every state, with every field value, rs before rt and the byte offset in hexadecimal; its one
effect is its line. -/
def Obligations.BranchPrintsItsLine : Prop :=
  ∀ (rs rt : U8) (offset : I32) (s : State), exec (.beql rs rt offset) s =
    .next { s with output := s.output ++ ("beql r".toList ++ dec rs.toNat ++ ", r".toList ++ dec rt.toNat ++
      ", ".toList ++ hex offset.toNat) ++ ['\n'] }

/-- The frame of all six instructions (R20, R29, R40, R162, R202): executing a decoded instruction always answers a next
state, in which every byte of the buffer, the word count, the word number, the input file and the phase are as before,
and the output has grown by the instruction's line and a terminator. -/
def Obligations.InstructionsChangeTheOutputAlone : Prop :=
  ∀ (i : Instr) (s : State), ∃ t, exec i s = .next t ∧
    (∀ a, t.buffer.read a = s.buffer.read a) ∧ t.buffer = s.buffer ∧
    t.phase = s.phase ∧ t.inputFile = s.inputFile ∧ t.wordCount = s.wordCount ∧ t.wordNumber = s.wordNumber ∧
    t.output = s.output ++ format i ++ ['\n']

/-! ## The machine's steps -/

/-- When a word remains and the four bytes at byte offset 4*i decode to an instruction, the step is that instruction's
meaning on the state with the word number one higher (R43, R104, R115); the rest of the bytes is the decoder's own
argument. -/
def Obligations.StepRunsTheDecodedInstruction : Prop :=
  ∀ (s : State) (b0 b1 b2 b3 : Byte) (rest : List Byte) (i : Instr),
    s.phase = .running → s.wordNumber < s.wordsToProcess →
    s.buffer.read (4 * s.wordNumber) = some b0 → s.buffer.read (4 * s.wordNumber + 1) = some b1 →
    s.buffer.read (4 * s.wordNumber + 2) = some b2 → s.buffer.read (4 * s.wordNumber + 3) = some b3 →
    decodeBytes (b0 :: b1 :: b2 :: b3 :: rest) = .ok (i, rest) →
    step s = exec i { s with wordNumber := s.wordNumber + 1 }

/-- R301: an unrecognised opcode is a result, not an exception: the step answers a next state, and what it prints is the
fallback line. -/
def Obligations.UnrecognisedWordPrintsItsFallback : Prop :=
  ∀ (s : State) (w : Word), s.Presents w → decode w = none →
    step s = .next { s with
      wordNumber := s.wordNumber + 1
      output := s.output ++ (bin6 (opcodeOf w) ++ " ".toList ++ hex (opcodeOf w).toNat) ++ ['\n'] }

/-- R114, R115: presenting a word, whatever it is, prints its line and one terminator and moves on to the next word; it
changes nothing else. -/
def Obligations.StepPrintsTheLineOfTheWord : Prop :=
  ∀ (s : State) (w : Word), s.Presents w →
    step s = .next { s with
      wordNumber := s.wordNumber + 1
      output := s.output ++ (match decode w with
        | some i => format i
        | none => fallback (opcodeOf w)) ++ ['\n'] }

/-- R31, R50, R403: the line printed for a word depends on the word alone: two states that present the same word, however
else they differ, have the same text added to their outputs. -/
def Obligations.LineDependsOnTheWordAlone : Prop :=
  ∀ (s s' : State) (w : Word), s.Presents w → s'.Presents w →
    ∃ t t' added, step s = .next t ∧ step s' = .next t' ∧
      t.output = s.output ++ added ∧ t'.output = s'.output ++ added

/-- R53, R30, R47: no step after the load changes the buffer, no step changes the word count or the input file, the output
only grows, and no step goes back to an earlier word once words are presented. That a step after the last word
changes nothing is the model's choice (log entry 4), and so is the load as one step (log entry 5). -/
def Obligations.StepsNeverWriteTheBuffer : Prop :=
  ∀ s t : State, step s = .next t →
    t.wordCount = s.wordCount ∧ t.inputFile = s.inputFile ∧ t.phase = .running ∧
    (∃ added, t.output = s.output ++ added) ∧
    (s.phase = .running → t.buffer = s.buffer ∧ (∀ a, t.buffer.read a = s.buffer.read a) ∧
      s.wordNumber ≤ t.wordNumber ∧ t.wordNumber ≤ s.wordNumber + 1)

/-- R402, R41, R43: the caller's start-up with a readable file puts the file's bytes at byte offsets 0 to len - 1 and
nothing elsewhere, makes word 0 the next word, and prints nothing. That the load is one step is the model's choice (log
entry 5). -/
def Obligations.StartupLoadsTheFile : Prop :=
  ∀ (s : State) (bs : List Byte), s.phase = .startup → s.inputFile = .contents bs →
    ∃ t, step s = .next t ∧ t.phase = .running ∧ t.wordNumber = 0 ∧ t.output = s.output ∧
      t.wordCount = s.wordCount ∧ t.inputFile = s.inputFile ∧
      t.buffer.len = bs.length ∧ t.buffer.wf = true ∧ ∀ a, t.buffer.read a = bs[a]?

/-- R304: without a readable file the start-up is fatal; from a state of the invariant this is the only way a step can
fail to answer a next state. The second clause also covers running states whose n words are done: that the step answers a
next state there is the model's choice (log entry 4), since R46 says only that the caller stops. -/
def Obligations.OnlyAMissingFileStopsTheMachine : Prop :=
  (∀ s : State, s.phase = .startup → s.inputFile = .unavailable → step s = .fault .inputFileUnavailable) ∧
  ∀ s : State, s.Inv → (∀ t, step s ≠ .next t) → s.phase = .startup ∧ s.inputFile = .unavailable

/-- R300, R49: no word stops the machine: from every state of the invariant in which the file is loaded, a step answers a
next state. While a word remains this is the rules'; where none remains, that the step answers a next state is the model's
choice (log entry 4), since R46 says only that the caller stops. -/
def Obligations.NoWordStopsTheMachine : Prop :=
  ∀ s : State, s.Inv → s.phase = .running → ∃ t, step s = .next t

/-- R42, R43: word i of a loaded file is made of the four bytes from byte offset 4*i on, the first most significant, so
that the opcode comes from the byte at the lowest offset; and there is no word i without all four. -/
def Obligations.WordsAreBigEndian : Prop :=
  (∀ (bs : List Byte) (i : Nat) (b0 b1 b2 b3 : Byte),
    bs[4 * i]? = some b0 → bs[4 * i + 1]? = some b1 → bs[4 * i + 2]? = some b2 → bs[4 * i + 3]? = some b3 →
    ∃ w, (Memory.ofBytes bs).wordAt i = some w ∧
      w.toNat = b0.toNat * 2 ^ 24 + b1.toNat * 2 ^ 16 + b2.toNat * 2 ^ 8 + b3.toNat ∧
      wordField w 26 6 = b0.toNat / 4) ∧
  ∀ (bs : List Byte) (i : Nat), bs.length ≤ 4 * i + 3 → (Memory.ofBytes bs).wordAt i = none

/-- R46: the caller presents n = min(WORD_COUNT, floor(len / 4)) words, so a word that is presented lies whole within the
buffer and within the count; when the n words are done, the step leaves everything as it is (the caller has stopped: log
entry 4, the model's choice). -/
def Obligations.OnlyWholeWordsArePresented : Prop :=
  (∀ (s : State) (w : Word), s.Presents w →
    s.wordNumber < s.wordCount ∧ 4 * s.wordNumber + 4 ≤ s.buffer.len) ∧
  ∀ s : State, s.phase = .running → min s.wordCount (s.buffer.len / 4) ≤ s.wordNumber → step s = .next s

/-- The machine's invariant is kept by every step from every state that meets it (R41, R46, R47, R115): the buffer stays
in its canonical form, no word past n is presented, and the output is the lines of the words presented so far.
The load as one step and the step that changes nothing after the last word are the model's choices (log entries 5 and 4). -/
def Obligations.StepKeepsTheInvariant : Prop :=
  ∀ s t : State, s.Inv → step s = .next t → t.Inv

/-- The invariant holds after reset, where nothing is loaded and nothing is printed (R400, R401; reset values of log
entries 1 and 2). -/
def Obligations.ResetMeetsTheInvariant : Prop := State.reset.Inv

/-- A consequence of R115 and R46: for every file and every WORD_COUNT, a run long enough to load the file and present its n words ends with
the output R115 gives: the concatenation of the lines of words 0 to n - 1, each with its terminator. The run starts from
the reset state with that file and that count supplied; that the load is one step and that the machine stays as it is
after its last word are the model's choices (log entries 4 and 5). -/
def Obligations.CompleteRunPrintsEveryLine : Prop :=
  ∀ (bs : List Byte) (count k : Nat), 1 + min count (bs.length / 4) ≤ k →
    ∃ t : State, Sys2Proof.core.run k { State.reset with inputFile := .contents bs, wordCount := count } = .next t ∧
      t.output = runOutput count bs ∧ t.wordNumber = min count (bs.length / 4)

/-- The bits `w` of an instruction, placed where the next word is taken from, are what the next step decodes and runs, from
any state (R42, R43; placing is the model's stand-in for the load, log entries 3 and 18). -/
def Obligations.PlacedWordIsTheNextStep : Prop :=
  ∀ (s : State) (w : Nat) (i : Instr), decodeTableWord 32 w = some i →
    step (s.withFetchWord 32 w) =
      exec i { s.withFetchWord 32 w with wordNumber := s.wordNumber + 1 }

/-! ## The port view -/

/-- R33: the ports of every word. `hit` tells a recognised word; `opcode` and `text` are driven for every word; `kind` and
the fields of the word's variant are driven when `hit` is 1. Nothing is said of a port the word does not drive. -/
def Obligations.PortsFollowTheDecodedWord : Prop :=
  ∀ w : Word,
    ((ports w).hit = true ↔ ∃ i, decode w = some i) ∧
    (ports w).opcode.toNat = wordField w 26 6 ∧ (ports w).text = line w ∧
    (wordField w 26 6 = 0x0C → (ports w).kind = 0 ∧ (ports w).fRs.toNat = wordField w 21 5 ∧
      (ports w).fRt.toNat = wordField w 16 5 ∧ (ports w).fImm.toNat = wordField w 0 16) ∧
    (wordField w 26 6 = 0x0D → (ports w).kind = 1 ∧ (ports w).fRs.toNat = wordField w 21 5 ∧
      (ports w).fRt.toNat = wordField w 16 5 ∧ (ports w).fImm.toNat = wordField w 0 16) ∧
    (wordField w 26 6 = 0x0F → (ports w).kind = 2 ∧ (ports w).fRt.toNat = wordField w 21 5 ∧
      (ports w).fImm.toNat = wordField w 0 16) ∧
    (wordField w 26 6 = 0x23 → (ports w).kind = 3 ∧ (ports w).fBase.toNat = wordField w 21 5 ∧
      (ports w).fRt.toNat = wordField w 16 5 ∧ (ports w).fImm.toNat = wordField w 0 16) ∧
    (wordField w 26 6 = 0x10 → (ports w).kind = 4 ∧ (ports w).fRt.toNat = wordField w 16 5 ∧
      (ports w).fRd.toNat = wordField w 11 5 ∧ (ports w).fSel.toNat = wordField w 0 4) ∧
    (wordField w 26 6 = 0x14 → (ports w).kind = 5 ∧ (ports w).fRs.toNat = wordField w 21 5 ∧
      (ports w).fRt.toNat = wordField w 16 5 ∧ (ports w).fOff.toInt = 4 * (wordField w 0 16 : Int))
end

