-- ==== Sys2Proof/Laws/Bits.lean ====
section
/-! SUPPORT. The bits and the values of the extractor and of the encoder's field update. -/

namespace Sys2Proof

/-- The mask holds ones below its width and nothing above, the full width included (R100). -/
theorem getLsbD_lowMask (n width k : Nat) :
    (lowMask n width).getLsbD k = (decide (k < n) && decide (k < width)) := by
  have h : lowMask n width = BitVec.ofNat n (2 ^ width - 1) := by
    apply BitVec.eq_of_toNat_eq
    rcases Nat.eq_zero_or_pos n with rfl | hn
    · simp [lowMask, Nat.mod_one]
    · simp only [lowMask, BitVec.toNat_sub, BitVec.toNat_shiftLeft, BitVec.toNat_ofNat]
      have h1 : 1 % 2 ^ n = 1 := Nat.mod_eq_of_lt (Nat.one_lt_two_pow (by omega))
      have hle : 1 ≤ 2 ^ n := Nat.one_le_two_pow
      have hw : 1 ≤ 2 ^ width := Nat.one_le_two_pow
      rw [h1, Nat.shiftLeft_eq, one_mul, Nat.add_mod_mod,
        show 2 ^ n - 1 + 2 ^ width = (2 ^ width - 1) + 2 ^ n by omega, Nat.add_mod_right]
  rw [h, BitVec.getLsbD_ofNat, Nat.testBit_two_pow_sub_one]

/-- Bit k of a field is bit lo + k of the value, within the range. -/
theorem getLsbD_fieldBits {n : Nat} (v : BitVec n) (lo hi k : Nat) :
    (fieldBits v lo hi).getLsbD k = (decide (k < hi - lo + 1) && v.getLsbD (lo + k)) := by
  simp only [fieldBits, BitVec.getLsbD_and, BitVec.getLsbD_ushiftRight, getLsbD_lowMask]
  by_cases h : v.getLsbD (lo + k)
  · have := BitVec.lt_of_getLsbD h
    simp [h, show k < n by omega]
  · simp [h]

/-- The value of a field (R100): the bits from lo up, of the range's width. -/
theorem toNat_fieldBits {n : Nat} (v : BitVec n) (lo hi : Nat) :
    (fieldBits v lo hi).toNat = v.toNat / 2 ^ lo % 2 ^ (hi - lo + 1) := by
  apply Nat.eq_of_testBit_eq
  intro k
  rw [BitVec.testBit_toNat, getLsbD_fieldBits, Nat.testBit_mod_two_pow, Nat.testBit_div_two_pow,
    BitVec.testBit_toNat, Nat.add_comm k lo]

theorem FieldRange.width_le {c : Nat} (r : FieldRange c) : r.width ≤ c := r.fits

theorem FieldRange.lo_add_width {c : Nat} (r : FieldRange c) : r.lo + r.width = r.hi + 1 := by
  have h := r.ordered
  unfold FieldRange.width
  omega

/-- The value of a field in its container (R100, R102): nothing is cut off, since the range fits. -/
theorem toNat_readField8 (w : Word) (r : FieldRange 8) :
    (readField8 w r).toNat = w.toNat / 2 ^ r.lo % 2 ^ r.width := by
  have hb : 2 ^ r.width ≤ 2 ^ 8 := Nat.pow_le_pow_right (by omega) r.fits
  have hlt := Nat.mod_lt (w.toNat / 2 ^ r.lo) (Nat.two_pow_pos r.width)
  rw [readField8, BitVec.toNat_setWidth, toNat_fieldBits, ← FieldRange.width, Nat.mod_eq_of_lt (by omega)]

theorem toNat_readField16 (w : Word) (r : FieldRange 16) :
    (readField16 w r).toNat = w.toNat / 2 ^ r.lo % 2 ^ r.width := by
  have hb : 2 ^ r.width ≤ 2 ^ 16 := Nat.pow_le_pow_right (by omega) r.fits
  have hlt := Nat.mod_lt (w.toNat / 2 ^ r.lo) (Nat.two_pow_pos r.width)
  rw [readField16, BitVec.toNat_setWidth, toNat_fieldBits, ← FieldRange.width, Nat.mod_eq_of_lt (by omega)]

theorem getLsbD_readField8 (w : Word) (r : FieldRange 8) (k : Nat) :
    (readField8 w r).getLsbD k = (decide (k < r.width) && w.getLsbD (r.lo + k)) := by
  rw [readField8, BitVec.getLsbD_setWidth, getLsbD_fieldBits, ← FieldRange.width]
  by_cases h : k < r.width
  · simp [h, Nat.lt_of_lt_of_le h r.width_le]
  · simp [h]

theorem getLsbD_readField16 (w : Word) (r : FieldRange 16) (k : Nat) :
    (readField16 w r).getLsbD k = (decide (k < r.width) && w.getLsbD (r.lo + k)) := by
  rw [readField16, BitVec.getLsbD_setWidth, getLsbD_fieldBits, ← FieldRange.width]
  by_cases h : k < r.width
  · simp [h, Nat.lt_of_lt_of_le h r.width_le]
  · simp [h]

/-- What a request answers: the range itself within the precondition and the container, a refusal otherwise (R101). -/
theorem FieldRange.request_cases (c lo hi : Nat) :
    (∃ r : FieldRange c, FieldRange.request c lo hi = .ok r ∧ r.lo = lo ∧ r.hi = hi) ∨
    (FieldRange.request c lo hi = .error .widerThanContainer ∧ lo ≤ hi ∧ hi < 32 ∧ c < hi - lo + 1) ∨
    (FieldRange.request c lo hi = .error .contractViolation ∧ ¬ (lo ≤ hi ∧ hi < 32)) := by
  unfold FieldRange.request
  split
  · rename_i h
    split
    · exact .inl ⟨_, rfl, rfl, rfl⟩
    · exact .inr (.inl ⟨rfl, h.1, h.2, by omega⟩)
  · rename_i h
    exact .inr (.inr ⟨rfl, h⟩)

theorem FieldRange.request_self {c : Nat} (r : FieldRange c) : FieldRange.request c r.lo r.hi = .ok r := by
  rw [FieldRange.request, dif_pos ⟨r.ordered, r.inWord⟩, dif_pos r.fits]

/-- The entry point, asked for a field's range, answers what the decoder reads there (R102). -/
theorem extract8_field (w : Word) (r : FieldRange 8) : extract8 w r.lo r.hi = .ok (readField8 w r) := by
  rw [extract8, r.request_self]; rfl

theorem extract16_field (w : Word) (r : FieldRange 16) : extract16 w r.lo r.hi = .ok (readField16 w r) := by
  rw [extract16, r.request_self]; rfl

/-- What setField does to each bit: the field's bits come from the value, every other bit stays. -/
theorem getLsbD_setField {c : Nat} (r : FieldRange c) (v w : Word) (k : Nat) :
    (setField r v w).getLsbD k =
      (decide (k < 32) && if r.lo ≤ k ∧ k ≤ r.hi then v.getLsbD (k - r.lo) else w.getLsbD k) := by
  have hw := r.lo_add_width
  simp only [setField, BitVec.getLsbD_or, BitVec.getLsbD_and, BitVec.getLsbD_not, BitVec.getLsbD_shiftLeft,
    getLsbD_lowMask]
  by_cases hk : k < 32
  · by_cases hlo : r.lo ≤ k
    · have h2 : ¬ k < r.lo := by omega
      have h3 : k - r.lo < 32 := by omega
      by_cases hhi : k ≤ r.hi
      · simp [hk, hlo, hhi, h2, h3, show k - r.lo < r.width by omega]
      · simp [hk, hhi, show ¬ (k - r.lo < r.width) by omega]
    · simp [hk, hlo, show k < r.lo by omega]
  · simp [hk]

/-- A field reads back what was put there, when it fits the field. -/
theorem readField8_setField_same (r : FieldRange 8) (v : U8) (w : Word) (h : v.toNat < 2 ^ r.width) :
    readField8 (setField r (v.setWidth 32) w) r = v := by
  have hw := r.lo_add_width
  have h32 := r.inWord
  apply BitVec.eq_of_getLsbD_eq
  intro k hk
  rw [getLsbD_readField8, getLsbD_setField]
  by_cases h1 : k < r.width
  · simp [h1, show r.lo + k < 32 by omega, show r.lo + k ≤ r.hi by omega, show k < 32 by omega]
  · have hz : v.getLsbD k = false := by
      have hp : 2 ^ r.width ≤ 2 ^ k := Nat.pow_le_pow_right (by omega) (by omega)
      exact Nat.testBit_lt_two_pow (by omega)
    simp [h1, hz]

/-- The whole low half reads back what was put there. -/
theorem readField16_setField_same (v w : Word) :
    readField16 (setField lowHalfField v w) lowHalfField = v.setWidth 16 := by
  apply BitVec.eq_of_getLsbD_eq
  intro k hk
  rw [getLsbD_readField16, getLsbD_setField]
  simp [lowHalfField, FieldRange.width, hk, show k < 32 by omega, show k ≤ 15 by omega]

/-- A field above or below the one put there is unchanged. -/
theorem readField8_setField_disjoint {c : Nat} (r : FieldRange 8) (r' : FieldRange c) (v w : Word)
    (h : r.hi < r'.lo ∨ r'.hi < r.lo) : readField8 (setField r' v w) r = readField8 w r := by
  have hw := r.lo_add_width
  have h32 := r.inWord
  apply BitVec.eq_of_getLsbD_eq
  intro k hk
  rw [getLsbD_readField8, getLsbD_readField8, getLsbD_setField]
  by_cases h1 : k < r.width
  · have h2 : ¬ (r'.lo ≤ r.lo + k ∧ r.lo + k ≤ r'.hi) := by omega
    simp [h1, h2, show r.lo + k < 32 by omega]
  · simp [h1]

theorem readField16_setField_disjoint {c : Nat} (r : FieldRange 16) (r' : FieldRange c) (v w : Word)
    (h : r.hi < r'.lo ∨ r'.hi < r.lo) : readField16 (setField r' v w) r = readField16 w r := by
  have hw := r.lo_add_width
  have h32 := r.inWord
  apply BitVec.eq_of_getLsbD_eq
  intro k hk
  rw [getLsbD_readField16, getLsbD_readField16, getLsbD_setField]
  by_cases h1 : k < r.width
  · have h2 : ¬ (r'.lo ≤ r.lo + k ∧ r.lo + k ≤ r'.hi) := by omega
    simp [h1, h2, show r.lo + k < 32 by omega]
  · simp [h1]

/-- Putting back what stands there changes nothing (R106). -/
theorem setField_of_bits {c : Nat} (r : FieldRange c) (v w : Word)
    (h : ∀ k, r.lo ≤ k → k ≤ r.hi → v.getLsbD (k - r.lo) = w.getLsbD k) : setField r v w = w := by
  apply BitVec.eq_of_getLsbD_eq
  intro k hk
  rw [getLsbD_setField]
  split <;> simp_all

end Sys2Proof
end

