-- ==== Sys2Proof/Laws/Decode.lean ====
section
/-! SUPPORT. What the decoder answers: the table's entries, the kind of what is decoded, bytes and words. -/

namespace Sys2Proof

/-- The six opcodes that name a kind, and nothing else does (R71, R72). -/
theorem decodeTable_eq_some_iff (op : U8) (k : Kind) : decodeTable op = some k ↔ op = k.opcode := by
  revert op
  cases k <;> decide

theorem decodeWith_eq_some_iff (p : Params) (w : Word) (i : Instr) :
    decodeWith p w = some i ↔ ∃ k : Kind, opcodeOf w = k.opcode ∧ decodeKind p w k = i := by
  simp [decodeWith, Option.map_eq_some_iff, decodeTable_eq_some_iff]

theorem decodeWith_eq_none_iff (p : Params) (w : Word) :
    decodeWith p w = none ↔ ∀ k : Kind, opcodeOf w ≠ k.opcode := by
  rw [decodeWith, Option.map_eq_none_iff, Option.eq_none_iff_forall_ne_some]
  simp [decodeTable_eq_some_iff]

/-- A word whose opcode is a kind's is decoded by that kind's field extractor (R104). -/
theorem decodeWith_of_opcode (p : Params) (w : Word) (k : Kind) (h : opcodeOf w = k.opcode) :
    decodeWith p w = some (decodeKind p w k) :=
  (decodeWith_eq_some_iff p w _).2 ⟨k, h, rfl⟩

/-- The decoded instruction is of the kind whose field extractor made it. -/
@[simp] theorem kind_decodeKind (p : Params) (w : Word) (k : Kind) : (decodeKind p w k).kind = k := by
  cases k <;> rfl

theorem Kind.opcode_injective {k k' : Kind} (h : k.opcode = k'.opcode) : k = k' := by
  revert h; cases k <;> cases k' <;> decide

theorem opcodeOf_toNat (w : Word) : (opcodeOf w).toNat = w.toNat / 2 ^ 26 := by
  have hw := w.isLt
  rw [opcodeOf, toNat_readField8]
  change w.toNat / 2 ^ 26 % 2 ^ 6 = _
  omega

/-- The value of the word of four bytes (R42). -/
theorem wordOfBytes_toNat (b0 b1 b2 b3 : Byte) :
    (wordOfBytes b0 b1 b2 b3).toNat =
      b0.toNat * 2 ^ 24 + b1.toNat * 2 ^ 16 + b2.toNat * 2 ^ 8 + b3.toNat := by
  have h : wordOfBytes b0 b1 b2 b3 = b0 ++ b1 ++ b2 ++ b3 := by
    apply BitVec.eq_of_getLsbD_eq
    intro k hk
    simp only [wordOfBytes, BitVec.getLsbD_or, BitVec.getLsbD_shiftLeft, BitVec.getLsbD_setWidth,
      BitVec.getLsbD_append]
    interval_cases k <;> simp
  have h0 := b0.isLt
  have h1 := b1.isLt
  have h2 := b2.isLt
  have h3 := b3.isLt
  rw [h, BitVec.toNat_append, BitVec.toNat_append, BitVec.toNat_append,
    ← Nat.shiftLeft_add_eq_or_of_lt h3, ← Nat.shiftLeft_add_eq_or_of_lt h2, ← Nat.shiftLeft_add_eq_or_of_lt h1]
  simp only [Nat.shiftLeft_eq]
  omega

/-- The bytes the buffer holds for a word give the word back (R42). -/
theorem wordOfBytes_bytes (w : Word) :
    wordOfBytes (readField8 w { lo := 24, hi := 31 }) (readField8 w { lo := 16, hi := 23 })
      (readField8 w { lo := 8, hi := 15 }) (readField8 w { lo := 0, hi := 7 }) = w := by
  apply BitVec.eq_of_toNat_eq
  have hw := w.isLt
  simp only [wordOfBytes_toNat, toNat_readField8, FieldRange.width]
  omega

end Sys2Proof
end

