-- ==== Sys2Proof/Laws/Memory.lean ====
section
/-! SUPPORT. The buffer: every operation gives the canonical form, a buffer in it is its bytes, and what a read gives. -/

namespace Sys2Proof.Machine

theorem Memory.length_cellsFrom (k : Nat) (bs : List Byte) : (Memory.cellsFrom k bs).length = bs.length := by
  induction bs generalizing k with
  | nil => rfl
  | cons b bs ih => simp [Memory.cellsFrom, ih]

theorem Memory.offsets_cellsFrom (k : Nat) (bs : List Byte) :
    (Memory.cellsFrom k bs).map Prod.fst = List.range' k bs.length := by
  induction bs generalizing k with
  | nil => rfl
  | cons b bs ih => simp [Memory.cellsFrom, ih, List.range'_succ]

theorem Memory.bytes_cellsFrom (k : Nat) (bs : List Byte) : (Memory.cellsFrom k bs).map Prod.snd = bs := by
  induction bs generalizing k with
  | nil => rfl
  | cons b bs ih => simp [Memory.cellsFrom, ih]

@[simp] theorem Memory.bytes_ofBytes (bs : List Byte) : (Memory.ofBytes bs).bytes = bs :=
  Memory.bytes_cellsFrom 0 bs

@[simp] theorem Memory.len_ofBytes (bs : List Byte) : (Memory.ofBytes bs).len = bs.length :=
  Memory.length_cellsFrom 0 bs

/-- A loaded buffer is in the canonical form. -/
@[simp] theorem Memory.ofBytes_wf (bs : List Byte) : (Memory.ofBytes bs).wf = true := by
  simp [Memory.wf, Memory.ofBytes, Memory.offsets_cellsFrom, Memory.length_cellsFrom, List.range_eq_range']

/-- Placing bytes gives the canonical form. -/
@[simp] theorem Memory.place_wf (m : Memory) (a : Nat) (bs : List Byte) : (m.place a bs).wf = true :=
  Memory.ofBytes_wf _

/-- The empty buffer is in the canonical form. -/
@[simp] theorem Memory.nil_wf : Memory.wf [] = true := rfl

theorem Memory.length_bytes (m : Memory) : m.bytes.length = m.len := by
  simp [Memory.bytes, Memory.len]

theorem Memory.cellsFrom_of_offsets (m : Memory) (k : Nat) (h : m.map Prod.fst = List.range' k m.length) :
    Memory.cellsFrom k (m.map Prod.snd) = m := by
  induction m generalizing k with
  | nil => rfl
  | cons c m ih =>
    simp only [List.map_cons, List.length_cons, List.range'_succ, List.cons.injEq] at h
    obtain ⟨hk, ht⟩ := h
    subst hk
    simp only [List.map_cons, Memory.cellsFrom, ih _ ht]

/-- A buffer in the canonical form is the buffer of its bytes: equal buffers are equal data. -/
theorem Memory.ofBytes_bytes (m : Memory) (h : m.wf = true) : Memory.ofBytes m.bytes = m := by
  have h' : m.map Prod.fst = List.range m.length := by simpa [Memory.wf] using h
  exact Memory.cellsFrom_of_offsets m 0 (by rw [h', List.range_eq_range'])

theorem Memory.read_cellsFrom (k : Nat) (bs : List Byte) (a : Nat) :
    (Memory.cellsFrom k bs).read (k + a) = bs[a]? := by
  induction bs generalizing k a with
  | nil => simp [Memory.cellsFrom, Memory.read]
  | cons b bs ih =>
    cases a with
    | zero => simp [Memory.cellsFrom, Memory.read]
    | succ a =>
      have h : k + (a + 1) = k + 1 + a := by omega
      have hne : ¬ (k + 1 + a = k) := by omega
      rw [h, Memory.cellsFrom, Memory.read, if_neg hne, ih (k + 1) a]
      simp

/-- A loaded buffer reads as the file's bytes, and holds no byte past them (R41). -/
@[simp] theorem Memory.read_ofBytes (bs : List Byte) (a : Nat) : (Memory.ofBytes bs).read a = bs[a]? := by
  have h := Memory.read_cellsFrom 0 bs a
  rwa [Nat.zero_add] at h

/-- The word at word number i is made of the four bytes from 4*i on. -/
theorem Memory.wordAt_eq_some {m : Memory} {i : Nat} {w : Word} (h : m.wordAt i = some w) :
    ∃ b0 b1 b2 b3, m.read (4 * i) = some b0 ∧ m.read (4 * i + 1) = some b1 ∧ m.read (4 * i + 2) = some b2 ∧
      m.read (4 * i + 3) = some b3 ∧ w = wordOfBytes b0 b1 b2 b3 := by
  unfold Memory.wordAt at h
  split at h
  · rename_i b0 b1 b2 b3 h0 h1 h2 h3
    exact ⟨b0, b1, b2, b3, h0, h1, h2, h3, (Option.some.inj h).symm⟩
  · cases h

theorem Memory.wordAt_of_reads {m : Memory} {i : Nat} {b0 b1 b2 b3 : Byte} (h0 : m.read (4 * i) = some b0)
    (h1 : m.read (4 * i + 1) = some b1) (h2 : m.read (4 * i + 2) = some b2) (h3 : m.read (4 * i + 3) = some b3) :
    m.wordAt i = some (wordOfBytes b0 b1 b2 b3) := by
  simp only [Memory.wordAt, h0, h1, h2, h3]

/-- A whole word in a loaded buffer is there to be taken (R46, R49). -/
theorem Memory.wordAt_ofBytes_isSome (bs : List Byte) (i : Nat) (h : 4 * i + 3 < bs.length) :
    ∃ w, (Memory.ofBytes bs).wordAt i = some w :=
  ⟨_, Memory.wordAt_of_reads (by rw [Memory.read_ofBytes, List.getElem?_eq_getElem (by omega)])
    (by rw [Memory.read_ofBytes, List.getElem?_eq_getElem (by omega)])
    (by rw [Memory.read_ofBytes, List.getElem?_eq_getElem (by omega)])
    (by rw [Memory.read_ofBytes, List.getElem?_eq_getElem h])⟩

/-- Placed bytes read back where they were placed. -/
theorem Memory.read_place (m : Memory) (a : Nat) (bs : List Byte) (k : Nat) (h : k < bs.length) :
    (m.place a bs).read (a + k) = bs[k]? := by
  have hl : (m.bytes.take a ++ List.replicate (a - m.bytes.length) 0).length = a := by simp; omega
  rw [Memory.place, Memory.read_ofBytes, List.append_assoc, List.getElem?_append_right (by omega), hl,
    Nat.add_sub_cancel_left, List.getElem?_append_left h]

/-- The buffer reaches past the bytes placed in it. -/
theorem Memory.len_place (m : Memory) (a : Nat) (bs : List Byte) : a + bs.length ≤ (m.place a bs).len := by
  simp [Memory.place]; omega

end Sys2Proof.Machine
end

