-- ==== Sys2Proof/Laws/PerInstr.lean ====
section
/-! SUPPORT. The statements made per instruction: one lemma per constructor of Instr. -/

namespace Sys2Proof.Laws.EncodeOpcode

/-- The word built from an instruction, over any old bits and under any parameters, carries the opcode of its kind, so
that the decode_table names that kind (R61, R71, R106). -/
def Statement (i : Instr) : Prop :=
  ∀ (p : Params) (old : Word), decodeTable (opcodeOf (encodeOver p old i)) = some i.kind

/-- The opcode field of the built word reads back as it was put there. -/
theorem opcodeOf_encodeOver (p : Params) (old : Word) (i : Instr) :
    opcodeOf (encodeOver p old i) = i.kind.opcode := by
  rw [opcodeOf, encodeOver, readField8_setField_same]
  generalize i.kind = k
  cases k <;> decide

theorem andi (rs rt : U8) (immediate : U16) : Statement (.andi rs rt immediate) :=
  fun p old => (decodeTable_eq_some_iff _ _).2 (opcodeOf_encodeOver p old _)

theorem ori (rs rt : U8) (immediate : U16) : Statement (.ori rs rt immediate) :=
  fun p old => (decodeTable_eq_some_iff _ _).2 (opcodeOf_encodeOver p old _)

theorem lui (rt : U8) (immediate : U16) : Statement (.lui rt immediate) :=
  fun p old => (decodeTable_eq_some_iff _ _).2 (opcodeOf_encodeOver p old _)

theorem lw (base rt : U8) (offset : U16) : Statement (.lw base rt offset) :=
  fun p old => (decodeTable_eq_some_iff _ _).2 (opcodeOf_encodeOver p old _)

theorem mtc0 (rt rd sel : U8) : Statement (.mtc0 rt rd sel) :=
  fun p old => (decodeTable_eq_some_iff _ _).2 (opcodeOf_encodeOver p old _)

theorem beql (rs rt : U8) (offset : I32) : Statement (.beql rs rt offset) :=
  fun p old => (decodeTable_eq_some_iff _ _).2 (opcodeOf_encodeOver p old _)

end Sys2Proof.Laws.EncodeOpcode
end

