-- ==== Sys2Proof/Laws/State.lean ====
section
/-! SUPPORT. One lemma per field per update of State, true by rfl, so that no later proof unfolds a record update. -/

namespace Sys2Proof.Machine

variable (s : State) (l : Text) (w : Word)

@[simp] theorem State.advance_phase : s.advance.phase = s.phase := rfl
@[simp] theorem State.advance_inputFile : s.advance.inputFile = s.inputFile := rfl
@[simp] theorem State.advance_buffer : s.advance.buffer = s.buffer := rfl
@[simp] theorem State.advance_wordCount : s.advance.wordCount = s.wordCount := rfl
@[simp] theorem State.advance_wordNumber : s.advance.wordNumber = s.wordNumber + 1 := rfl
@[simp] theorem State.advance_output : s.advance.output = s.output := rfl

@[simp] theorem State.printLine_phase : (s.printLine l).phase = s.phase := rfl
@[simp] theorem State.printLine_inputFile : (s.printLine l).inputFile = s.inputFile := rfl
@[simp] theorem State.printLine_buffer : (s.printLine l).buffer = s.buffer := rfl
@[simp] theorem State.printLine_wordCount : (s.printLine l).wordCount = s.wordCount := rfl
@[simp] theorem State.printLine_wordNumber : (s.printLine l).wordNumber = s.wordNumber := rfl
@[simp] theorem State.printLine_output : (s.printLine l).output = s.output ++ l ++ ['\n'] := rfl

@[simp] theorem State.placeNextWord_phase : (s.placeNextWord w).phase = .running := rfl
@[simp] theorem State.placeNextWord_inputFile : (s.placeNextWord w).inputFile = s.inputFile := rfl
@[simp] theorem State.placeNextWord_buffer :
    (s.placeNextWord w).buffer = s.buffer.place (4 * s.wordNumber) (bytesOfWord w) := rfl
@[simp] theorem State.placeNextWord_wordCount :
    (s.placeNextWord w).wordCount = max s.wordCount (s.wordNumber + 1) := rfl
@[simp] theorem State.placeNextWord_wordNumber : (s.placeNextWord w).wordNumber = s.wordNumber := rfl
@[simp] theorem State.placeNextWord_output : (s.placeNextWord w).output = s.output := rfl

@[simp] theorem State.reset_phase : State.reset.phase = .startup := rfl
@[simp] theorem State.reset_inputFile : State.reset.inputFile = .unavailable := rfl
@[simp] theorem State.reset_buffer : State.reset.buffer = [] := rfl
@[simp] theorem State.reset_wordCount : State.reset.wordCount = 0 := rfl
@[simp] theorem State.reset_wordNumber : State.reset.wordNumber = 0 := rfl
@[simp] theorem State.reset_output : State.reset.output = [] := rfl

@[simp] theorem State.advance_wordsToProcess : s.advance.wordsToProcess = s.wordsToProcess := rfl
@[simp] theorem State.printLine_wordsToProcess : (s.printLine l).wordsToProcess = s.wordsToProcess := rfl

theorem State.wordsToProcess_eq : s.wordsToProcess = min s.wordCount (s.buffer.len / 4) := rfl

theorem State.hasWord_iff : s.hasWord = true ↔ s.wordNumber < s.wordsToProcess := by
  simp [State.hasWord]

end Sys2Proof.Machine
end

