-- ==== Sys2Proof/Laws/Step.lean ====
section
/-! SUPPORT. What a step can do, said once: the meanings, the decode transaction and the step. -/

namespace Sys2Proof.Machine

/-- Every decoded instruction has one effect: its line is written. -/
theorem exec_eq_printLine (i : Instr) (s : State) : exec i s = .next (s.printLine (format i)) := by
  cases i <;> rfl

/-- A decode transaction writes the word's line (R114). -/
theorem transact_eq_printLine (w : Word) (s : State) : transact w s = .next (s.printLine (line w)) := by
  unfold transact line lineWith decode
  cases decodeWith decidedParams w with
  | some i => exact exec_eq_printLine i s
  | none => rfl

/-- Everything that a step answering a next state can have done: loaded the file, presented a word, or nothing, because
no word is left. -/
theorem step_cases {s t : State} (h : step s = .next t) :
    (∃ bs, s.phase = .startup ∧ s.inputFile = .contents bs ∧
      t = { s with phase := .running, buffer := Memory.ofBytes bs, wordNumber := 0 }) ∨
    (∃ w, s.phase = .running ∧ s.hasWord = true ∧ s.fetch = some w ∧ t = s.advance.printLine (line w)) ∨
    (s.phase = .running ∧ s.hasWord = false ∧ t = s) := by
  unfold step at h
  split at h
  · rename_i hp
    unfold State.loadInputFile at h
    split at h
    · rename_i bs hf
      exact .inl ⟨bs, hp, hf, (Host.Outcome.next.inj h).symm⟩
    · cases h
  · rename_i hp
    split at h
    · rename_i hw
      split at h
      · rename_i w hf
        rw [transact_eq_printLine] at h
        exact .inr (.inl ⟨w, hp, hw, hf, (Host.Outcome.next.inj h).symm⟩)
      · cases h
    · rename_i hw
      exact .inr (.inr ⟨hp, by simpa using hw, (Host.Outcome.next.inj h).symm⟩)

/-- The two ways a step can stop. -/
theorem step_fault_cases {s : State} {r : Fault} (h : step s = .fault r) :
    (r = .inputFileUnavailable ∧ s.phase = .startup ∧ s.inputFile = .unavailable) ∨
    (r = .absentByte ∧ s.phase = .running ∧ s.hasWord = true ∧ s.fetch = none) := by
  unfold step at h
  split at h
  · rename_i hp
    unfold State.loadInputFile at h
    split at h
    · cases h
    · rename_i hf
      exact .inl ⟨(Host.Outcome.fault.inj h).symm, hp, hf⟩
  · rename_i hp
    split at h
    · rename_i hw
      split at h
      · rw [transact_eq_printLine] at h; cases h
      · rename_i hf
        exact .inr ⟨(Host.Outcome.fault.inj h).symm, hp, hw, hf⟩
    · cases h

/-- A step that presents a word. -/
theorem step_of_word {s : State} {w : Word} (hp : s.phase = .running) (hw : s.hasWord = true)
    (hf : s.fetch = some w) : step s = transact w s.advance := by
  simp only [step, hp, hw, hf, if_true]

/-- The word placed for the next step is the word that step takes. -/
theorem State.fetch_placeNextWord (s : State) (w : Word) : (s.placeNextWord w).fetch = some w := by
  have hr (k : Nat) (hk : k < 4) : (s.placeNextWord w).buffer.read (4 * s.wordNumber + k) = (bytesOfWord w)[k]? :=
    Memory.read_place _ _ _ _ hk
  have h := Memory.wordAt_of_reads (m := (s.placeNextWord w).buffer) (i := s.wordNumber)
    (hr 0 (by omega)) (hr 1 (by omega)) (hr 2 (by omega)) (hr 3 (by omega))
  rwa [wordOfBytes_bytes] at h

theorem State.hasWord_placeNextWord (s : State) (w : Word) : (s.placeNextWord w).hasWord = true := by
  have h := Memory.len_place s.buffer (4 * s.wordNumber) (bytesOfWord w)
  have h4 : (bytesOfWord w).length = 4 := rfl
  rw [State.hasWord_iff, State.wordsToProcess_eq]
  simp only [State.placeNextWord_wordNumber, State.placeNextWord_wordCount, State.placeNextWord_buffer]
  omega

/-- A run goes on from the state its first step answers. -/
theorem core_run_of_next (k : Nat) (s t : State) (h : step s = .next t) :
    Sys2Proof.core.run (k + 1) s = Sys2Proof.core.run k t := by
  have run_of_next (M : Host.Core) (s t : M.State) (h : M.step s = .next t) : M.run (k + 1) s = M.run k t := by
    simp only [Host.Core.run, h]
  exact run_of_next Sys2Proof.core s t h

end Sys2Proof.Machine
end

