-- ==== Sys2Proof/Laws/Text.lean ====
section
/-! SUPPORT. Digits and numerals: what the renderings of Operands.lean write, and how Safety.lean reads it. -/

namespace Sys2Proof.Machine

/-- A digit character has the value it was made from. -/
theorem digitValue_digitChar (d : Nat) (h : d < 16) : digitValue (Nat.digitChar d) = some d := by
  revert d; decide

theorem readDigits_append (base acc : Nat) (t u : Text) :
    readDigits base acc (t ++ u) = (readDigits base acc t).bind fun a => readDigits base a u := by
  induction t generalizing acc with
  | nil => rfl
  | cons c t ih =>
    simp only [List.cons_append, readDigits]
    split
    · split_ifs
      · exact ih _
      · rfl
    · rfl

/-- Digits read back as the number they were written for, in every base up to 16. -/
theorem readDigits_toDigits (base v : Nat) (hb : 1 < base) (hb' : base ≤ 16) :
    readDigits base 0 (Nat.toDigits base v) = some v := by
  induction v using Nat.strong_induction_on with
  | _ v ih =>
    by_cases h : v < base
    · simp [Nat.toDigits_of_lt_base h, readDigits, digitValue_digitChar v (by omega), h]
    · have hlt := Nat.mod_lt v (show 0 < base by omega)
      rw [Nat.toDigits_of_base_le hb (by omega), readDigits_append, ih _ (Nat.div_lt_self (by omega) hb)]
      simp [readDigits, digitValue_digitChar (v % base) (by omega), hlt, Nat.div_add_mod]

/-- Two numbers with the same digits are the same number. -/
theorem toDigits_injective (base : Nat) (hb : 1 < base) (hb' : base ≤ 16) {v v' : Nat}
    (h : Nat.toDigits base v = Nat.toDigits base v') : v = v' := by
  have h' := readDigits_toDigits base v hb hb'
  rw [h, readDigits_toDigits base v' hb hb'] at h'
  exact (Option.some.inj h').symm

theorem dec_injective {v v' : Nat} (h : dec v = dec v') : v = v' :=
  toDigits_injective 10 (by omega) (by omega) h

theorem hex_injective {v v' : Nat} (h : hex v = hex v') : v = v' :=
  toDigits_injective 16 (by omega) (by omega) (by simpa [hex] using h)

end Sys2Proof.Machine
end

