-- ==== Sys2Proof/Tests/Slice0.lean ====
section
/-! SUPPORT. Tests of the model on words, lines and single steps whose expected results come from spec/95_test_vectors.md
(or from the rule named beside them), the smoke test of WellFormed, and a witness for every statement of
Certificates/Slice0/Obligations.lean that has hypotheses. -/

namespace Sys2Proof.Tests

open Sys2Proof.Machine

/-! ## WellFormed: an ill-formed instruction for each check (R24) -/

theorem test_wf_refuses_rs_32 : (Instr.andi 32 0 0).wf = false := by decide
theorem test_wf_refuses_rt_32 : (Instr.ori 0 32 0).wf = false := by decide
theorem test_wf_refuses_lui_rt_32 : (Instr.lui 32 0).wf = false := by decide
theorem test_wf_refuses_base_255 : (Instr.lw 255 0 0).wf = false := by decide
theorem test_wf_refuses_rd_32 : (Instr.mtc0 0 32 0).wf = false := by decide
theorem test_wf_refuses_sel_16 : (Instr.mtc0 0 0 16).wf = false := by decide
theorem test_wf_refuses_sel_8_of_three_bits :
    (Instr.mtc0 0 0 8).wfUnder { decidedParams with mtc0SelHi := .bit2 } = false := by decide
theorem test_wf_refuses_offset_not_of_words : (Instr.beql 0 0 2).wf = false := by decide
theorem test_wf_refuses_offset_too_large : (Instr.beql 0 0 262144).wf = false := by decide
theorem test_wf_refuses_offset_negative : (Instr.beql 0 0 (-4)).wf = false := by decide
theorem test_wf_signed_offset_bounds :
    (Instr.beql 0 0 (-131072)).wfUnder { decidedParams with beqlSext := true } = true ∧
    (Instr.beql 0 0 131072).wfUnder { decidedParams with beqlSext := true } = false := by decide

/-! ## The extractor: the table of 95_test_vectors.md -/

theorem test_extract_whole_word : extract 0xDEADBEEF#32 0 31 = .ok 0xDEADBEEF#32 := by rfl
theorem test_extract_single_bits :
    extract 0xDEADBEEF#32 31 31 = .ok 1#8 ∧ extract 0xDEADBEEF#32 4 4 = .ok 0#8 := by decide
theorem test_extract_opcode : extract 0x30A10005#32 26 31 = .ok 0x0C#8 := by decide
theorem test_extract_low_half : extract 0x30A10005#32 0 15 = .ok 5#16 := by decide
theorem test_extract_register : extract 0xFFFFFFFF#32 21 25 = .ok 31#8 := by decide
theorem test_extract_middle : extract 0x12345678#32 8 23 = .ok 0x3456#16 := by decide
theorem test_extract_seventeen_bits : extract 0xFFFFFFFF#32 0 16 = .ok 0x1FFFF#32 := by rfl
theorem test_extract_refuses_lo_above_hi (w : Word) : extract w 5 4 = .error .contractViolation := by
  simp [extract]
theorem test_extract_refuses_hi_32 (w : Word) : extract w 0 32 = .error .contractViolation := by
  simp [extract]

theorem test_entry_points_refuse :
    extract8 0xFFFFFFFF#32 5 4 = .error .contractViolation ∧ extract8 0xFFFFFFFF#32 0 32 = .error .contractViolation ∧
    extract16 0xFFFFFFFF#32 5 4 = .error .contractViolation ∧
    extract16 0xFFFFFFFF#32 0 32 = .error .contractViolation := by decide
theorem test_entry_points_answer :
    extract8 0x30A10005#32 26 31 = .ok 0x0C ∧ extract8 0xFFFFFFFF#32 21 25 = .ok 31 ∧
    extract16 0x12345678#32 8 23 = .ok 0x3456 := by decide

/-! ## Decoding: words written out bit by bit from R63 to R67, and the corners of the vectors -/

theorem test_decode_andi : decode 0b001100_00101_00001_0000000000000101#32 = some (.andi 5 1 5) := by decide
theorem test_decode_andi_ones : decode 0x33FFFFFF#32 = some (.andi 31 31 0xFFFF) := by decide
theorem test_decode_ori : decode 0b001101_00101_00001_1010101111001101#32 = some (.ori 5 1 0xABCD) := by decide
theorem test_decode_ori_rs_zero : decode 0x3402000A#32 = some (.ori 0 2 0xA) := by decide
theorem test_decode_lui : decode 0b001111_00001_01000_0000000000001000#32 = some (.lui 1 8) := by decide
/-- Scenario 2 of the source, overruled by its own field table (C1). -/
theorem test_decode_lui_scenario : decode 0x3C010008#32 = some (.lui 0 8) := by decide
theorem test_decode_lw : decode 0b100011_00001_00011_0000000000010000#32 = some (.lw 1 3 16) := by decide
theorem test_decode_lw_unsigned : decode 0x8C01FFFC#32 = some (.lw 0 1 65532) := by decide
theorem test_decode_mtc0 : decode 0b010000_00100_01100_01100_0000000_0000#32 = some (.mtc0 12 12 0) := by decide
theorem test_decode_mtc0_sel_bit_3 : decode 0x42000018#32 = some (.mtc0 0 0 8) := by decide
theorem test_decode_beql : decode 0b010100_00001_00010_0000000000000011#32 = some (.beql 1 2 12) := by decide
theorem test_decode_beql_bit_15 : decode 0x5022FFFF#32 = some (.beql 1 2 262140) := by decide

theorem test_decode_neighbours :
    decode 0x2C000000#32 = none ∧ decode 0x38000000#32 = none ∧ decode 0x44000000#32 = none ∧
    decode 0x54000000#32 = none ∧ decode 0x88000000#32 = none ∧ decode 0xFFFFFFFF#32 = none := by decide

/-- The alternative columns of the vectors (D3, D4, D5). -/
theorem test_decode_alternatives :
    decodeWith { decidedParams with luiRtLo := .bit16 } 0x3C010008#32 = some (.lui 1 8) ∧
    decodeWith { decidedParams with mtc0SelHi := .bit2 } 0x4080000F#32 = some (.mtc0 0 0 7) ∧
    decodeWith { decidedParams with beqlSext := true } 0x5022FFFF#32 = some (.beql 1 2 (-4)) := by decide

theorem test_decodeBytes_partial : decodeBytes [0xAB, 0xCD] = .error (.partialWord 2) := by decide
theorem test_decodeBytes_unrecognised :
    decodeBytes [0x24, 0x02, 0x00, 0x01, 0xAB] = .error (.unrecognised 0x09) := by decide
theorem test_decodeBytes_rest :
    decodeBytes [0x30, 0xA1, 0x00, 0x05, 0xAB, 0xCD] = .ok (.andi 5 1 5, [0xAB, 0xCD]) := by decide
theorem test_decodeTableWord : decodeTableWord 32 0x8C230010 = some (.lw 1 3 16) := by decide

/-! ## Encoding: the round-trip rows of the vectors -/

theorem test_encode_andi : encode (.andi 4 4 0xFF00) = 0x3084FF00#32 := by decide
theorem test_encode_ori : encode (.ori 5 1 0xABCD) = 0x34A1ABCD#32 := by decide
theorem test_encode_lw : encode (.lw 1 3 16) = 0x8C230010#32 := by decide
theorem test_encode_beql : encode (.beql 1 2 262140) = 0x5022FFFF#32 := by decide
theorem test_encodeOver_lui_keeps_ignored :
    encodeOver decidedParams 0x3C1F0000#32 (.lui 0 0xFFFF) = 0x3C1FFFFF#32 := by decide
theorem test_encodeOver_mtc0_keeps_ignored :
    encodeOver decidedParams 0x42000010#32 (.mtc0 0 0 8) = 0x42000018#32 := by decide

/-! ## Lines -/

theorem test_line_andi : line 0x3084FF00#32 = "andi r4, r4, 0xff00".toList := by decide
theorem test_line_ori : line 0x34A1ABCD#32 = "ori r1, r5, 0xabcd".toList := by decide
theorem test_line_lui : line 0x3FE00000#32 = "lui r31, 0x0".toList := by decide
theorem test_line_lw : line 0x8FFFFFFF#32 = "lw r31, 65535(31)".toList := by decide
theorem test_line_mtc0 : line 0x43FFFFFF#32 = "mtc0 r31, c31, 0xf".toList := by decide
theorem test_line_beql : line 0x5042FFFE#32 = "beql r2, r2, 0x3fff8".toList := by decide
theorem test_line_beql_negative :
    lineWith { decidedParams with beqlSext := true } 0x5022FFFF#32 = "beql r1, r2, 0xfffffffc".toList := by decide
theorem test_line_fallback_zero : line 0x00000020#32 = "000000 0x0".toList := by decide
theorem test_line_fallback_ones : line 0xFFFFFFFF#32 = "111111 0x3f".toList := by decide
theorem test_line_fallback_nine : line 0x24010001#32 = "001001 0x9".toList := by decide

/-- The output of Program 4 of the vectors: the third word is not decoded. -/
theorem test_runOutput_count_two :
    runOutput 2 [0x50, 0x22, 0x00, 0x03, 0x34, 0xA1, 0xAB, 0xCD, 0x30, 0xA1, 0x00, 0x05] =
      "beql r1, r2, 0xc\nori r1, r5, 0xabcd\n".toList := by decide

/-! ## The port view: the rows of the vectors -/

theorem test_ports_andi :
    (ports 0x30A10005#32).hit = true ∧ (ports 0x30A10005#32).kind = 0 ∧ (ports 0x30A10005#32).opcode = 0x0C ∧
    (ports 0x30A10005#32).fRs = 5 ∧ (ports 0x30A10005#32).fRt = 1 ∧ (ports 0x30A10005#32).fImm = 5 := by decide
theorem test_ports_beql :
    (ports 0x5022FFFF#32).kind = 5 ∧ (ports 0x5022FFFF#32).fRs = 1 ∧ (ports 0x5022FFFF#32).fRt = 2 ∧
    (ports 0x5022FFFF#32).fOff = 0x0003FFFC := by decide
theorem test_ports_unrecognised :
    (ports 0xFFFFFFFF#32).hit = false ∧ (ports 0xFFFFFFFF#32).opcode = 0x3F := by decide

/-! ## Single steps -/

/-- A running machine whose buffer holds these bytes, the next word being number `i`. -/
def running (bs : List Byte) (count i : Nat) : State :=
  { State.reset with phase := .running, buffer := Memory.ofBytes bs, wordCount := count, wordNumber := i }

/-- The buffer of Program 3 of the vectors: four words and two trailing bytes. -/
def program3 : List Byte :=
  [0x40, 0x8C, 0x60, 0x00, 0x00, 0x00, 0x00, 0x0F, 0x42, 0x00, 0x00, 0x18, 0x24, 0x02, 0x00, 0x01, 0xAB, 0xCD]

theorem test_step_prints_third_word :
    step (running program3 8 2) =
      .next { running program3 8 3 with output := "mtc0 r0, c0, 0x8\n".toList } := by rfl
theorem test_step_prints_fallback :
    step (running program3 8 3) =
      .next { running program3 8 4 with output := "001001 0x9\n".toList } := by rfl
theorem test_step_stops_before_trailing_bytes :
    step (running program3 8 4) = .next (running program3 8 4) := by rfl
theorem test_step_from_reset_without_file : step State.reset = .fault .inputFileUnavailable := by rfl
theorem test_placed_word_runs_first :
    step (State.reset.withFetchWord 32 0x30A10005) =
      .next { State.reset.withFetchWord 32 0x30A10005 with
        wordNumber := 1, output := "andi r1, r5, 0x5\n".toList } := by rfl
theorem test_reset_memory_wf : State.reset.buffer.wf = true := by decide

/-! ## Witnesses: a state and operands that meet the hypotheses of each statement, clause by clause -/

theorem witness_ExtractorReturnsTheRange :
    (8 ∈ [8, 16, 32, 64] ∧ 7 ≤ 7 ∧ 7 < 8) ∧ (32 ∈ [8, 16, 32, 64] ∧ 0 ≤ 31 ∧ 31 < 32) ∧
    (64 ∈ [8, 16, 32, 64] ∧ 0 ≤ 63 ∧ 63 < 64) := by decide

theorem witness_ExtractorBoundaryRanges : 0 < 32 ∧ 31 < 32 := by decide

theorem witness_EntryPointsAgreeWithExtractor :
    (24 ≤ 31 ∧ 31 < 32 ∧ 31 - 24 + 1 ≤ 8) ∧ (16 ≤ 31 ∧ 31 < 32 ∧ 31 - 16 + 1 ≤ 16) ∧
    (23 ≤ 31 ∧ 31 < 32 ∧ 8 < 31 - 23 + 1) ∧ (15 ≤ 31 ∧ 31 < 32 ∧ 16 < 31 - 15 + 1) := by decide

theorem witness_DecodeTableNamesSixKinds : (0 : U8).toNat < 64 ∧ (63 : U8).toNat < 64 := by decide

theorem witness_DecodeIsTotalOverTheOpcodes :
    wordField 0x8FFFFFFF#32 26 6 ∈ [0x0C, 0x14, 0x0F, 0x23, 0x10, 0x0D] ∧
    wordField 0xFFFFFFFF#32 26 6 ∉ [0x0C, 0x14, 0x0F, 0x23, 0x10, 0x0D] := by decide

theorem witness_ImmediateWordsDecode :
    wordField 0x33FFFFFF#32 26 6 = 0x0C ∧ wordField 0x34000000#32 26 6 = 0x0D ∧
    wordField 0x3FFFFFFF#32 26 6 = 0x0F := by decide

theorem witness_LoadAndCoprocessorWordsDecode :
    wordField 0x8FFFFFFF#32 26 6 = 0x23 ∧ wordField 0x43FFFFFF#32 26 6 = 0x10 := by decide

theorem witness_BranchWordsDecode :
    wordField 0x50000000#32 26 6 = 0x14 ∧ wordField 0x53FFFFFF#32 26 6 = 0x14 := by decide

theorem witness_AlternativeParametersDecode :
    (wordField 0x3C1FFFFF#32 26 6 = 0x0F ∧ { decidedParams with luiRtLo := .bit16 }.luiRtLo = .bit16) ∧
    (wordField 0x43FFFFFF#32 26 6 = 0x10 ∧ { decidedParams with mtc0SelHi := .bit2 }.mtc0SelHi = .bit2) ∧
    (wordField 0x50008000#32 26 6 = 0x14 ∧ { decidedParams with beqlSext := true }.beqlSext = true) := by decide

theorem witness_DecodedValuesMeetTheirInvariants :
    decode 0x33FFFFFF#32 = some (.andi 31 31 0xFFFF) ∧ decode 0x37FFFFFF#32 = some (.ori 31 31 0xFFFF) ∧
    decode 0x3FFFFFFF#32 = some (.lui 31 0xFFFF) ∧ decode 0x8FFFFFFF#32 = some (.lw 31 31 65535) ∧
    decode 0x43FFFFFF#32 = some (.mtc0 31 31 15) ∧ decode 0x53FFFFFF#32 = some (.beql 31 31 262140) := by decide

theorem witness_DecodeOfEncodeIsTheInstruction :
    (Instr.andi 31 31 0xFFFF).wf = true ∧ (Instr.ori 31 0 0).wf = true ∧ (Instr.lui 31 0xFFFF).wf = true ∧
    (Instr.lw 31 31 65535).wf = true ∧ (Instr.mtc0 31 31 15).wf = true ∧ (Instr.beql 31 31 262140).wf = true ∧
    (Instr.beql 0 31 (-131072)).wfUnder ⟨true, .bit16, .bit2⟩ = true := by decide

theorem witness_RebuildingFromTheFieldsGivesTheWord :
    decode 0x3C1FFFFF#32 = some (.lui 0 0xFFFF) ∧ decode 0x5022FFFF#32 = some (.beql 1 2 262140) := by decide

theorem witness_IgnoredBitsChangeNothing :
    (wordField 0x3C010008#32 26 6 = 0x0F ∧ AgreeOutside [(16, 20)] 0x3C010008#32 0x3C1E0008#32) ∧
    (wordField 0x408C6000#32 26 6 = 0x10 ∧ AgreeOutside [(21, 25), (4, 10)] 0x408C6000#32 0x436C67F0#32) ∧
    (decode 0x00000000#32 = none ∧ AgreeOutside [(0, 25)] 0x00000000#32 0x03FFFFFF#32) := by
  unfold AgreeOutside
  decide

theorem witness_OpcodeAloneChoosesTheKind :
    wordField 0x408C6000#32 26 6 = wordField 0x42000018#32 26 6 ∧ wordField 0x42000018#32 26 6 = 0x10 ∧
    wordField 0x3C1F0000#32 26 6 = 0x0F := by decide

theorem witness_FallbackIsTheOpcodeInBinaryAndHex : (63 : U8).toNat < 64 := by decide

theorem witness_FormatIsInjective : format (.lw 1 3 16) = format (.lw 1 3 16) := rfl

theorem witness_LineTellsTheDecodedValue :
    line 0x3C010008#32 = line 0x3C1F0008#32 ∧ line 0x00000000#32 = line 0x0000000F#32 := by decide

theorem witness_StepRunsTheDecodedInstruction :
    (running program3 8 2).phase = .running ∧
    (running program3 8 2).wordNumber < (running program3 8 2).wordsToProcess ∧
    (running program3 8 2).buffer.read 8 = some 0x42 ∧ (running program3 8 2).buffer.read 9 = some 0x00 ∧
    (running program3 8 2).buffer.read 10 = some 0x00 ∧ (running program3 8 2).buffer.read 11 = some 0x18 ∧
    decodeBytes [0x42, 0x00, 0x00, 0x18, 0x24] = .ok (.mtc0 0 0 8, [0x24]) := by decide

theorem witness_UnrecognisedWordPrintsItsFallback :
    (running program3 8 3).Presents 0x24020001#32 ∧ decode 0x24020001#32 = none := by
  unfold State.Presents
  decide

theorem witness_StepPrintsTheLineOfTheWord :
    (running program3 8 0).Presents 0x408C6000#32 ∧ (running program3 4 3).Presents 0x24020001#32 := by
  unfold State.Presents
  decide

theorem witness_LineDependsOnTheWordAlone :
    (running program3 8 1).Presents 0x0000000F#32 ∧
    { running [0x00, 0x00, 0x00, 0x0F] 1 0 with output := ['x'] }.Presents 0x0000000F#32 := by
  unfold State.Presents
  decide

theorem witness_StepsNeverWriteTheBuffer :
    ∃ t, step (running program3 8 2) = .next t ∧ (running program3 8 2).phase = .running := ⟨_, rfl, rfl⟩

theorem witness_StartupLoadsTheFile :
    { State.reset with inputFile := .contents program3 }.phase = .startup ∧
    { State.reset with inputFile := .contents program3 }.inputFile = .contents program3 := by decide

/-- The invariant at the reset state, and while the words of Program 3 are presented. -/
theorem witness_inv_reset : State.reset.Inv := by
  refine ⟨by decide, fun _ => ⟨rfl, rfl⟩, fun h => ?_⟩
  cases h

theorem witness_inv_running : (running program3 8 0).Inv := by
  refine ⟨by decide, fun h => ?_, fun _ => ⟨by decide, rfl⟩⟩
  cases h

theorem witness_inv_after_one_word :
    { running program3 8 1 with output := "mtc0 r12, c12, 0x0\n".toList }.Inv := by
  refine ⟨by decide, fun h => ?_, fun _ => ⟨by decide, by decide⟩⟩
  cases h

theorem witness_OnlyAMissingFileStopsTheMachine :
    State.reset.Inv ∧ State.reset.phase = .startup ∧ State.reset.inputFile = .unavailable ∧
    ∀ t, step State.reset ≠ .next t := by
  refine ⟨witness_inv_reset, rfl, rfl, fun t h => ?_⟩
  cases h

theorem witness_NoWordStopsTheMachine : (running program3 8 0).Inv ∧ (running program3 8 0).phase = .running :=
  ⟨witness_inv_running, rfl⟩

theorem witness_WordsAreBigEndian :
    (program3[4 * 3]? = some 0x24 ∧ program3[4 * 3 + 1]? = some 0x02 ∧ program3[4 * 3 + 2]? = some 0x00 ∧
      program3[4 * 3 + 3]? = some 0x01) ∧ program3.length ≤ 4 * 4 + 3 := by decide

theorem witness_OnlyWholeWordsArePresented :
    (running program3 8 3).Presents 0x24020001#32 ∧
    ((running program3 8 4).phase = .running ∧ min 8 ((running program3 8 4).buffer.len / 4) ≤ 4) := by
  unfold State.Presents
  decide

theorem witness_StepKeepsTheInvariant :
    (running program3 8 0).Inv ∧ ∃ t, step (running program3 8 0) = .next t := ⟨witness_inv_running, _, rfl⟩

theorem witness_CompleteRunPrintsEveryLine :
    1 + min 8 (program3.length / 4) ≤ 5 ∧ 1 + min 0 (program3.length / 4) ≤ 1 := by decide

theorem witness_PlacedWordIsTheNextStep : decodeTableWord 32 0x42000018 = some (.mtc0 0 0 8) := by decide

theorem witness_PortsFollowTheDecodedWord :
    wordField 0x33FFFFFF#32 26 6 = 0x0C ∧ wordField 0x37FFFFFF#32 26 6 = 0x0D ∧ wordField 0x3FFFFFFF#32 26 6 = 0x0F ∧
    wordField 0x8FFFFFFF#32 26 6 = 0x23 ∧ wordField 0x43FFFFFF#32 26 6 = 0x10 ∧
    wordField 0x53FFFFFF#32 26 6 = 0x14 := by decide

end Sys2Proof.Tests
end

section
/-! SUPPORT. The decoder's fields as values: what a field and the opcode of a word are in the arithmetic of `wordField`,
and the value of the BEQL offset with `BEQL_SEXT` set. -/

namespace Sys2Proof.Machine

/-- What the decoder reads in an 8-bit container is the value of the word's bits there (R8, R100). -/
theorem toNat_readField8_eq_wordField (w : Word) (r : FieldRange 8) :
    (readField8 w r).toNat = wordField w r.lo r.width :=
  toNat_readField8 w r

/-- What the decoder reads in a 16-bit container is the value of the word's bits there (R8, R100). -/
theorem toNat_readField16_eq_wordField (w : Word) (r : FieldRange 16) :
    (readField16 w r).toNat = wordField w r.lo r.width :=
  toNat_readField16 w r

/-- The opcode is the value of bits 31..26 (R61). -/
theorem toNat_opcodeOf_eq_wordField (w : Word) : (opcodeOf w).toNat = wordField w 26 6 :=
  toNat_readField8_eq_wordField w opcodeField

/-- A word whose bits 31..26 hold a kind's opcode is decoded by that kind's field extractor (R104). -/
theorem decodeWith_of_wordField (p : Params) (w : Word) (k : Kind) (h : wordField w 26 6 = k.opcode.toNat) :
    decodeWith p w = some (decodeKind p w k) :=
  decodeWith_of_opcode p w k (BitVec.eq_of_toNat_eq ((toNat_opcodeOf_eq_wordField w).trans h))

/-- With `BEQL_SEXT` set the offset is four times the raw field read as a signed number (R70): eighteen bits, so the
32-bit shift loses none. -/
theorem toInt_beqlOffset_sext (f : U16) : (beqlOffset true f).toInt = 4 * f.toInt := by
  have hlo := f.le_toInt
  have hhi := f.toInt_lt
  have hshift : (beqlOffset true f).toInt = (f.toInt * 4).bmod (2 ^ 32) := by
    rw [beqlOffset, if_pos rfl, BitVec.shiftLeft_eq_mul_twoPow, BitVec.toInt_mul,
      BitVec.toInt_signExtend_of_le (by decide)]
    rfl
  rw [hshift, Int.bmod_eq_of_le (by omega) (by omega), Int.mul_comm]

/-- The signed reading of 16 bits (R70): the unsigned one, less 2^16 from 2^15 on. -/
theorem toInt_eq_toNat_sub (f : U16) :
    f.toInt = (f.toNat : Int) - if f.toNat < 2 ^ 15 then 0 else 2 ^ 16 := by
  rw [BitVec.toInt_eq_toNat_cond]
  split <;> split <;> omega

/-- Settles O10, kind by kind: the opcode names the kind, and its field extractor reads at the alternative position. -/
theorem alternativeParametersDecode : Obligations.AlternativeParametersDecode := by
  intro w
  refine ⟨fun hop p hp => ?lui, fun hop p hp => ?mtc0, fun hop p hp => ?beql⟩
  case lui =>
    refine ⟨_, _, decodeWith_of_wordField p w .lui hop, ?_, toNat_readField16_eq_wordField w _⟩
    rw [hp]
    exact toNat_readField8_eq_wordField w _
  case mtc0 =>
    refine ⟨_, _, _, decodeWith_of_wordField p w .mtc0 hop, toNat_readField8_eq_wordField w _,
      toNat_readField8_eq_wordField w _, ?_⟩
    rw [hp]
    exact toNat_readField8_eq_wordField w _
  case beql =>
    refine ⟨_, _, _, decodeWith_of_wordField p w .beql hop, toNat_readField8_eq_wordField w _,
      toNat_readField8_eq_wordField w _, ?_⟩
    have hf : (readField16 w lowHalfField).toNat = wordField w 0 16 := toNat_readField16_eq_wordField w _
    rw [hp, toInt_beqlOffset_sext, toInt_eq_toNat_sub, hf]

end Sys2Proof.Machine
end

section
/-! SUPPORT. The characters of a line: every part of a line is printable and begins and ends with no space, and so is
what the layout of R112 and the fallback of R113 put together from such parts. -/

namespace Sys2Proof.Machine

/-- A text of printable ASCII characters that is not empty and has no space at either end. -/
structure Trimmed (t : Text) : Prop where
  printable : ∀ c ∈ t, isPrintableAscii c = true
  first : ∃ c u, t = c :: u ∧ c ≠ ' '
  last : ∃ u c, t = u ++ [c] ∧ c ≠ ' '

/-- Trimmed texts stay trimmed when they are joined by printable characters, spaces among them. -/
theorem Trimmed.append_append {t s u : Text} (ht : Trimmed t) (hs : ∀ c ∈ s, isPrintableAscii c = true)
    (hu : Trimmed u) : Trimmed (t ++ s ++ u) where
  printable c hc := by
    rcases List.mem_append.1 hc with hc | hc
    · exact (List.mem_append.1 hc).elim (ht.printable c) (hs c)
    · exact hu.printable c hc
  first := by
    obtain ⟨c, v, rfl, hc⟩ := ht.first
    exact ⟨c, v ++ s ++ u, rfl, hc⟩
  last := by
    obtain ⟨v, c, rfl, hc⟩ := hu.last
    exact ⟨t ++ s ++ v, c, (List.append_assoc ..).symm, hc⟩

theorem Trimmed.append {t u : Text} (ht : Trimmed t) (hu : Trimmed u) : Trimmed (t ++ u) := by
  simpa using ht.append_append (s := []) (by simp) hu

/-- A text without any space is trimmed. -/
theorem trimmed_of_no_space {t : Text} (hne : t ≠ []) (h : ∀ c ∈ t, isPrintableAscii c = true ∧ c ≠ ' ') :
    Trimmed t where
  printable c hc := (h c hc).1
  first := ⟨t.head hne, t.tail, (List.cons_head_tail hne).symm, (h _ (List.head_mem hne)).2⟩
  last := ⟨t.dropLast, t.getLast hne, (List.dropLast_append_getLast hne).symm, (h _ (List.getLast_mem hne)).2⟩

theorem trimmed_digitChar (d : Nat) (hd : d < 16) : Trimmed [Nat.digitChar d] := by
  have h : ∀ d < 16, isPrintableAscii (Nat.digitChar d) = true ∧ Nat.digitChar d ≠ ' ' := by decide
  exact trimmed_of_no_space (by simp) (by simpa using h d hd)

/-- A numeral is its digits, in every base up to 16. -/
theorem trimmed_toDigits (base v : Nat) (hb : 1 < base) (hb' : base ≤ 16) : Trimmed (Nat.toDigits base v) := by
  induction v using Nat.strong_induction_on with
  | _ v ih =>
    by_cases h : v < base
    · rw [Nat.toDigits_of_lt_base h]
      exact trimmed_digitChar v (by omega)
    · have hlt := Nat.mod_lt v (show 0 < base by omega)
      rw [Nat.toDigits_of_base_le hb (by omega)]
      exact (ih _ (Nat.div_lt_self (by omega) hb)).append (trimmed_digitChar _ (by omega))

theorem trimmed_dec (v : Nat) : Trimmed (dec v) := trimmed_toDigits 10 v (by decide) (by decide)

theorem trimmed_hex (v : Nat) : Trimmed (hex v) :=
  (trimmed_of_no_space (by simp) (by simp [isPrintableAscii])).append (trimmed_toDigits 16 v (by decide) (by decide))

theorem trimmed_gprOperand (i : U8) : Trimmed (gprOperand i) :=
  (trimmed_of_no_space (by simp) (by simp [isPrintableAscii])).append (trimmed_dec _)

theorem trimmed_cprOperand (i : U8) : Trimmed (cprOperand i) :=
  (trimmed_of_no_space (by simp) (by simp [isPrintableAscii])).append (trimmed_dec _)

theorem trimmed_memOperand (offset : U16) (base : U8) : Trimmed (memOperand offset base) :=
  ((trimmed_dec _).append_append (by simp [isPrintableAscii]) (trimmed_dec _)).append
    (trimmed_of_no_space (by simp) (by simp [isPrintableAscii]))

theorem trimmed_bin6 (op : U8) : Trimmed (bin6 op) := by
  have h (b : Bool) : isPrintableAscii (binDigit b) = true ∧ binDigit b ≠ ' ' := by cases b <;> decide
  exact trimmed_of_no_space (by simp [bin6]) (by simp [bin6, h])

theorem trimmed_joinOperands : ∀ {ts : List Text}, ts ≠ [] → (∀ t ∈ ts, Trimmed t) → Trimmed (joinOperands ts)
  | [t], _, h => h t (by simp)
  | t :: u :: ts, _, h =>
    (h t (by simp)).append_append (by simp [isPrintableAscii])
      (trimmed_joinOperands (List.cons_ne_nil u ts) fun v hv => h v (List.mem_cons_of_mem t hv))

/-- What R9, R107 and R112 make of a line: printable ASCII characters and no line terminator among them, and no space at
either end. -/
def IsCleanLine (t : Text) : Prop :=
  (∀ c ∈ t, isPrintableAscii c = true ∧ c ≠ '\n') ∧
    ∃ first middle last, t = first :: middle ++ [last] ∧ first ≠ ' ' ∧ last ≠ ' '

/-- Two trimmed texts with a space between them are a clean line: a line terminator is not printable. -/
theorem isCleanLine_of_trimmed {t u : Text} (ht : Trimmed t) (hu : Trimmed u) : IsCleanLine (t ++ [' '] ++ u) := by
  constructor
  · intro c hc
    have hp := (ht.append_append (by simp [isPrintableAscii]) hu).printable c hc
    refine ⟨hp, ?_⟩
    rintro rfl
    exact absurd hp (by decide)
  · obtain ⟨a, v, rfl, ha⟩ := ht.first
    obtain ⟨v', b, rfl, hb⟩ := hu.last
    exact ⟨a, v ++ [' '] ++ v', b, by simp, ha, hb⟩

/-- The layout of R112: a mnemonic and at least one operand. -/
theorem isCleanLine_lineText {m : Text} {ts : List Text} (hm : Trimmed m) (hne : ts ≠ [])
    (hts : ∀ t ∈ ts, Trimmed t) : IsCleanLine (lineText m ts) :=
  isCleanLine_of_trimmed hm (trimmed_joinOperands hne hts)

theorem isCleanLine_format (i : Instr) : IsCleanLine (format i) := by
  cases i <;>
    exact isCleanLine_lineText (trimmed_of_no_space (by simp) (by simp [isPrintableAscii])) (by simp)
      (by simp [trimmed_gprOperand, trimmed_cprOperand, trimmed_memOperand, trimmed_hex, hexI32])

theorem isCleanLine_fallback (op : U8) : IsCleanLine (fallback op) :=
  isCleanLine_of_trimmed (trimmed_bin6 op) (trimmed_hex _)

/-- The line of a word, under every setting of the parameters of R7 (R114). -/
theorem isCleanLine_lineWith (p : Params) (w : Word) : IsCleanLine (lineWith p w) := by
  unfold lineWith
  split
  · exact isCleanLine_format _
  · exact isCleanLine_fallback _

/-- Settles O21: a line is trimmed parts with a space between them, whether formatted or the fallback. -/
theorem linesArePrintableAscii : Obligations.LinesArePrintableAscii :=
  ⟨isCleanLine_format, isCleanLine_lineWith decidedParams⟩

end Sys2Proof.Machine
end

section
/-! SUPPORT. The value invariants of R24: what they ask of each variant, that the decoder's fields meet them, and that an
instruction which meets them is what the word rebuilt from its fields decodes to. -/

namespace Sys2Proof

/-! ## What the invariants ask -/

@[simp] theorem regIndexOk_iff (r : U8) : regIndexOk r = true ↔ r.toNat ≤ 31 := by
  simp [regIndexOk]

@[simp] theorem selOk_bit3_iff (sel : U8) : selOk .bit3 sel = true ↔ sel.toNat ≤ 15 := by
  simp [selOk]

@[simp] theorem selOk_bit2_iff (sel : U8) : selOk .bit2 sel = true ↔ sel.toNat ≤ 7 := by
  simp [selOk]

@[simp] theorem beqlOffsetOk_false_iff (offset : I32) :
    beqlOffsetOk false offset = true ↔ offset.toInt % 4 = 0 ∧ 0 ≤ offset.toInt ∧ offset.toInt ≤ 262140 := by
  simp [beqlOffsetOk]

@[simp] theorem beqlOffsetOk_true_iff (offset : I32) :
    beqlOffsetOk true offset = true ↔
      offset.toInt % 4 = 0 ∧ -131072 ≤ offset.toInt ∧ offset.toInt ≤ 131068 := by
  simp [beqlOffsetOk]

section
variable (p : Params)

@[simp] theorem Instr.wfUnder_andi_iff (rs rt : U8) (immediate : U16) :
    (Instr.andi rs rt immediate).wfUnder p = true ↔ rs.toNat ≤ 31 ∧ rt.toNat ≤ 31 := by
  simp [Instr.wfUnder]

@[simp] theorem Instr.wfUnder_ori_iff (rs rt : U8) (immediate : U16) :
    (Instr.ori rs rt immediate).wfUnder p = true ↔ rs.toNat ≤ 31 ∧ rt.toNat ≤ 31 := by
  simp [Instr.wfUnder]

@[simp] theorem Instr.wfUnder_lui_iff (rt : U8) (immediate : U16) :
    (Instr.lui rt immediate).wfUnder p = true ↔ rt.toNat ≤ 31 := by
  simp [Instr.wfUnder]

@[simp] theorem Instr.wfUnder_lw_iff (base rt : U8) (offset : U16) :
    (Instr.lw base rt offset).wfUnder p = true ↔ base.toNat ≤ 31 ∧ rt.toNat ≤ 31 := by
  simp [Instr.wfUnder]

@[simp] theorem Instr.wfUnder_mtc0_iff (rt rd sel : U8) :
    (Instr.mtc0 rt rd sel).wfUnder p = true ↔
      rt.toNat ≤ 31 ∧ rd.toNat ≤ 31 ∧ selOk p.mtc0SelHi sel = true := by
  simp [Instr.wfUnder, and_assoc]

@[simp] theorem Instr.wfUnder_beql_iff (rs rt : U8) (offset : I32) :
    (Instr.beql rs rt offset).wfUnder p = true ↔
      rs.toNat ≤ 31 ∧ rt.toNat ≤ 31 ∧ beqlOffsetOk p.beqlSext offset = true := by
  simp [Instr.wfUnder, and_assoc]

end

/-! ## The decoder's fields meet them -/

theorem readField8_lt (w : Word) (r : FieldRange 8) : (readField8 w r).toNat < 2 ^ r.width := by
  rw [toNat_readField8]
  exact Nat.mod_lt _ (Nat.two_pow_pos _)

/-- A five-bit field is a register index (R26). -/
theorem readField8_le_31 (w : Word) (r : FieldRange 8) (h : r.width = 5) : (readField8 w r).toNat ≤ 31 := by
  have hlt := readField8_lt w r
  rw [h] at hlt
  omega

@[simp] theorem width_luiRtField (lo : LuiRtLo) : (luiRtField lo).width = 5 := by
  cases lo <;> rfl

theorem selOk_iff_lt (hi : Mtc0SelHi) (sel : U8) : selOk hi sel = true ↔ sel.toNat < 2 ^ (selField hi).width := by
  cases hi
  · exact (selOk_bit2_iff sel).trans Nat.lt_succ_iff.symm
  · exact (selOk_bit3_iff sel).trans Nat.lt_succ_iff.symm

/-- With `BEQL_SEXT` clear the offset is four times the raw field (R70): eighteen bits, so the 32-bit shift loses none
and the sign bit is 0. -/
theorem toInt_beqlOffset_zext (f : U16) : (beqlOffset false f).toInt = 4 * (f.toNat : Int) := by
  have hf := f.isLt
  have hnat : (beqlOffset false f).toNat = 4 * f.toNat := by
    simp only [beqlOffset, Bool.false_eq_true, if_false, BitVec.toNat_shiftLeft, BitVec.toNat_setWidth,
      Nat.shiftLeft_eq]
    omega
  rw [BitVec.toInt_eq_toNat_of_lt (by omega), hnat]
  rfl

/-- Every raw field gives an offset within the range of its parameter (R24, R70). -/
theorem beqlOffsetOk_beqlOffset (sext : Bool) (f : U16) : beqlOffsetOk sext (beqlOffset sext f) = true := by
  cases sext with
  | false =>
    have hf := f.isLt
    rw [beqlOffsetOk_false_iff, toInt_beqlOffset_zext]
    omega
  | true =>
    have hlo := f.le_toInt
    have hhi := f.toInt_lt
    rw [beqlOffsetOk_true_iff, Machine.toInt_beqlOffset_sext]
    omega

/-- Every field extractor gives a well-formed instruction (R24). -/
theorem wfUnder_decodeKind (p : Params) (w : Word) (k : Kind) : (decodeKind p w k).wfUnder p = true := by
  have hrs := readField8_le_31 w rsField rfl
  have hrt := readField8_le_31 w rtField rfl
  cases k with
  | andi => exact (Instr.wfUnder_andi_iff ..).2 ⟨hrs, hrt⟩
  | ori => exact (Instr.wfUnder_ori_iff ..).2 ⟨hrs, hrt⟩
  | lui => exact (Instr.wfUnder_lui_iff ..).2 (readField8_le_31 w _ (width_luiRtField _))
  | lw => exact (Instr.wfUnder_lw_iff ..).2 ⟨hrs, hrt⟩
  | mtc0 =>
    exact (Instr.wfUnder_mtc0_iff ..).2
      ⟨hrt, readField8_le_31 w rdField rfl, (selOk_iff_lt ..).2 (readField8_lt w _)⟩
  | beql => exact (Instr.wfUnder_beql_iff ..).2 ⟨hrs, hrt, beqlOffsetOk_beqlOffset _ _⟩

/-- "A decoded instruction outside these invariants is never produced" (R24), under every setting of R7. -/
theorem wfUnder_of_decodeWith {p : Params} {w : Word} {i : Instr} (h : decodeWith p w = some i) :
    i.wfUnder p = true := by
  obtain ⟨k, -, rfl⟩ := (decodeWith_eq_some_iff p w i).1 h
  exact wfUnder_decodeKind p w k

/-! ## Every well-formed instruction is decoded from some word -/

/-- A valid offset is rebuilt from the raw field that holds it shifted back down (R70, R106). -/
theorem beqlOffset_shiftRight (sext : Bool) (offset : I32) (h : beqlOffsetOk sext offset = true) :
    beqlOffset sext ((offset >>> 2).setWidth 16) = offset := by
  have hraw : ((offset >>> 2).setWidth 16).toNat = offset.toNat / 4 % 65536 := by
    simp [BitVec.toNat_setWidth, Nat.shiftRight_eq_div_pow]
  have hoff := BitVec.toInt_eq_toNat_cond offset
  have hlt := offset.isLt
  apply BitVec.eq_of_toInt_eq
  cases sext with
  | false =>
    obtain ⟨hmod, hlo, hhi⟩ := (beqlOffsetOk_false_iff offset).1 h
    rw [toInt_beqlOffset_zext, hraw]
    split at hoff <;> omega
  | true =>
    obtain ⟨hmod, hlo, hhi⟩ := (beqlOffsetOk_true_iff offset).1 h
    rw [Machine.toInt_beqlOffset_sext, Machine.toInt_eq_toNat_sub, hraw]
    split at hoff <;> split <;> omega

theorem readField8_encodeOver (p : Params) (old : Word) (i : Instr) (r : FieldRange 8) (h : r.hi < 26) :
    readField8 (encodeOver p old i) r = readField8 (setOperands p i old) r :=
  readField8_setField_disjoint r opcodeField _ _ (.inl h)

theorem readField16_encodeOver (p : Params) (old : Word) (i : Instr) :
    readField16 (encodeOver p old i) lowHalfField = readField16 (setOperands p i old) lowHalfField :=
  readField16_setField_disjoint lowHalfField opcodeField _ _ (.inl (by decide))

/-- rs, rt and the low half read back as they were put there (R62), by the variants that are laid out so: ANDI, ORI, LW
and BEQL. -/
theorem readFields_encodeOver {p : Params} {old low : Word} {i : Instr} {rs rt : U8}
    (hset : setOperands p i old =
      setField rsField (rs.setWidth 32) (setField rtField (rt.setWidth 32) (setField lowHalfField low old)))
    (hrs : rs.toNat ≤ 31) (hrt : rt.toNat ≤ 31) :
    readField8 (encodeOver p old i) rsField = rs ∧ readField8 (encodeOver p old i) rtField = rt ∧
      readField16 (encodeOver p old i) lowHalfField = low.setWidth 16 := by
  rw [readField8_encodeOver p old i rsField (by decide), readField8_encodeOver p old i rtField (by decide),
    readField16_encodeOver, hset]
  refine ⟨readField8_setField_same rsField rs _ (Nat.lt_succ_iff.2 hrs), ?_, ?_⟩
  · rw [readField8_setField_disjoint rtField rsField _ _ (by decide)]
    exact readField8_setField_same rtField rt _ (Nat.lt_succ_iff.2 hrt)
  · rw [readField16_setField_disjoint lowHalfField rsField _ _ (by decide),
      readField16_setField_disjoint lowHalfField rtField _ _ (by decide), readField16_setField_same]

/-- Where LUI's rt stands (R62): above the immediate and below the opcode, under either setting. -/
theorem luiRtField_bounds (lo : LuiRtLo) : lowHalfField.hi < (luiRtField lo).lo ∧ (luiRtField lo).hi < 26 := by
  cases lo <;> decide

/-- Where MTC0's sel stands (R62): below rd, under either setting. -/
theorem selField_hi_lt (hi : Mtc0SelHi) : (selField hi).hi < rdField.lo := by
  cases hi <;> decide

/-- The field extractor of its kind reads every operand back out of the word that a well-formed instruction was put
in (R62, R106). -/
theorem decodeKind_encodeOver (p : Params) (old : Word) (i : Instr) (h : i.wfUnder p = true) :
    decodeKind p (encodeOver p old i) i.kind = i := by
  cases i with
  | andi rs rt immediate =>
    obtain ⟨h1, h2⟩ := (Instr.wfUnder_andi_iff ..).1 h
    obtain ⟨e1, e2, e3⟩ := readFields_encodeOver (i := .andi rs rt immediate) (p := p) (old := old) rfl h1 h2
    simp [Instr.kind, decodeKind, decodeAndi, e1, e2, e3]
  | ori rs rt immediate =>
    obtain ⟨h1, h2⟩ := (Instr.wfUnder_ori_iff ..).1 h
    obtain ⟨e1, e2, e3⟩ := readFields_encodeOver (i := .ori rs rt immediate) (p := p) (old := old) rfl h1 h2
    simp [Instr.kind, decodeKind, decodeOri, e1, e2, e3]
  | lui rt immediate =>
    have h1 := (Instr.wfUnder_lui_iff ..).1 h
    obtain ⟨hlo, hhi⟩ := luiRtField_bounds p.luiRtLo
    have hrt : rt.toNat < 2 ^ (luiRtField p.luiRtLo).width := by
      rw [width_luiRtField]
      exact Nat.lt_succ_iff.2 h1
    simp [Instr.kind, decodeKind, decodeLui, setOperands, readField8_encodeOver _ _ _ _ hhi, readField16_encodeOver,
      readField8_setField_same _ rt _ hrt, readField16_setField_disjoint lowHalfField _ _ _ (.inl hlo),
      readField16_setField_same]
  | lw base rt offset =>
    obtain ⟨h1, h2⟩ := (Instr.wfUnder_lw_iff ..).1 h
    obtain ⟨e1, e2, e3⟩ := readFields_encodeOver (i := .lw base rt offset) (p := p) (old := old) rfl h1 h2
    simp [Instr.kind, decodeKind, decodeLw, e1, e2, e3]
  | mtc0 rt rd sel =>
    obtain ⟨h1, h2, h3⟩ := (Instr.wfUnder_mtc0_iff ..).1 h
    have hsel := selField_hi_lt p.mtc0SelHi
    have e1 : readField8 (encodeOver p old (.mtc0 rt rd sel)) rtField = rt := by
      rw [readField8_encodeOver _ _ _ rtField (by decide), setOperands]
      exact readField8_setField_same rtField rt _ (Nat.lt_succ_iff.2 h1)
    have e2 : readField8 (encodeOver p old (.mtc0 rt rd sel)) rdField = rd := by
      rw [readField8_encodeOver _ _ _ rdField (by decide), setOperands,
        readField8_setField_disjoint rdField rtField _ _ (by decide)]
      exact readField8_setField_same rdField rd _ (Nat.lt_succ_iff.2 h2)
    have e3 : readField8 (encodeOver p old (.mtc0 rt rd sel)) (selField p.mtc0SelHi) = sel := by
      rw [readField8_encodeOver _ _ _ _ (hsel.trans (by decide)), setOperands,
        readField8_setField_disjoint _ rtField _ _ (.inl (hsel.trans (by decide))),
        readField8_setField_disjoint _ rdField _ _ (.inl hsel)]
      exact readField8_setField_same _ sel _ ((selOk_iff_lt ..).1 h3)
    simp [Instr.kind, decodeKind, decodeMtc0, e1, e2, e3]
  | beql rs rt offset =>
    obtain ⟨h1, h2, h3⟩ := (Instr.wfUnder_beql_iff ..).1 h
    obtain ⟨e1, e2, e3⟩ := readFields_encodeOver (i := .beql rs rt offset) (p := p) (old := old) rfl h1 h2
    simp [Instr.kind, decodeKind, decodeBeql, e1, e2, e3, beqlOffset_shiftRight _ offset h3]

/-- The word rebuilt from a well-formed instruction, over any old bits, decodes to it (R106). -/
theorem decodeWith_encodeOver (p : Params) (old : Word) (i : Instr) (h : i.wfUnder p = true) :
    decodeWith p (encodeOver p old i) = some i :=
  (decodeWith_eq_some_iff p _ i).2
    ⟨i.kind, Laws.EncodeOpcode.opcodeOf_encodeOver p old i, decodeKind_encodeOver p old i h⟩

/-- Settles O11: what R24 asks of each variant, at the values this spec decides. -/
theorem decodedValuesMeetTheirInvariants : Obligations.DecodedValuesMeetTheirInvariants := by
  intro w
  have hwf (i : Instr) (h : decode w = some i) : i.wfUnder decidedParams = true := wfUnder_of_decodeWith h
  have h16 (v : U16) : v.toNat ≤ 65535 := Nat.le_of_lt_succ v.isLt
  refine ⟨fun rs rt immediate h => ?andi, fun rs rt immediate h => ?ori, fun rt immediate h => ?lui,
    fun base rt offset h => ?lw, fun rt rd sel h => ?mtc0, fun rs rt offset h => ?beql⟩
  case andi =>
    obtain ⟨hrs, hrt⟩ := (Instr.wfUnder_andi_iff ..).1 (hwf _ h)
    exact ⟨hrs, hrt, h16 immediate⟩
  case ori =>
    obtain ⟨hrs, hrt⟩ := (Instr.wfUnder_ori_iff ..).1 (hwf _ h)
    exact ⟨hrs, hrt, h16 immediate⟩
  case lui => exact ⟨(Instr.wfUnder_lui_iff ..).1 (hwf _ h), h16 immediate⟩
  case lw =>
    obtain ⟨hbase, hrt⟩ := (Instr.wfUnder_lw_iff ..).1 (hwf _ h)
    exact ⟨hbase, hrt, h16 offset⟩
  case mtc0 =>
    obtain ⟨hrt, hrd, hsel⟩ := (Instr.wfUnder_mtc0_iff ..).1 (hwf _ h)
    exact ⟨hrt, hrd, (selOk_bit3_iff sel).1 hsel⟩
  case beql =>
    obtain ⟨hrs, hrt, hoff⟩ := (Instr.wfUnder_beql_iff ..).1 (hwf _ h)
    exact ⟨hrs, hrt, (beqlOffsetOk_false_iff offset).1 hoff⟩

/-- Settles O12: one way the field extractors give nothing else, the other way the word rebuilt from the fields is
the word asked for. -/
theorem wellFormedIffSomeWordDecodesToIt : Obligations.WellFormedIffSomeWordDecodesToIt :=
  fun p i => ⟨fun h => ⟨encodeOver p 0 i, decodeWith_encodeOver p 0 i h⟩, fun ⟨_, h⟩ => wfUnder_of_decodeWith h⟩

end Sys2Proof
end

section
/-! SUPPORT. What the machine adds to the output: the frame of the six instructions, and the step that presents a word. -/

namespace Sys2Proof.Machine

/-- The step that presents a word counts the word and writes its line, and does nothing else (R114, R115). -/
theorem step_of_presents {s : State} {w : Word} (h : s.Presents w) : step s = .next (s.advance.printLine (line w)) := by
  obtain ⟨hphase, hword, hfetch⟩ := h
  rw [step_of_word hphase hword hfetch, transact_eq_printLine]

/-- Settles O28: a decoded instruction does nothing but write its line. -/
theorem instructionsChangeTheOutputAlone : Obligations.InstructionsChangeTheOutputAlone :=
  fun i s => ⟨s.printLine (format i), exec_eq_printLine i s, fun _ => rfl, State.printLine_buffer s _,
    State.printLine_phase s _, State.printLine_inputFile s _, State.printLine_wordCount s _,
    State.printLine_wordNumber s _, State.printLine_output s _⟩

/-- Settles O32: the text added is the line of the word and its terminator, in which no state occurs. -/
theorem lineDependsOnTheWordAlone : Obligations.LineDependsOnTheWordAlone :=
  fun s s' w h h' => ⟨_, _, line w ++ ['\n'], step_of_presents h, step_of_presents h', by simp, by simp⟩

end Sys2Proof.Machine
end

section
/-! SUPPORT. The port view: the ports every word drives, and those of a word with a kind's opcode. -/

namespace Sys2Proof.Machine

/-! ## The ports every word drives -/

@[simp] theorem driveFields_hit (i : Instr) (p : Ports) : (driveFields i p).hit = p.hit := by
  cases i <;> rfl

@[simp] theorem driveFields_opcode (i : Instr) (p : Ports) : (driveFields i p).opcode = p.opcode := by
  cases i <;> rfl

@[simp] theorem driveFields_text (i : Instr) (p : Ports) : (driveFields i p).text = p.text := by
  cases i <;> rfl

/-- The ports are those of an idle word, with the fields of the decoded instruction driven if there is one. -/
theorem ports_cases (w : Word) :
    (decode w = none ∧ ports w = idlePorts w) ∨
    ∃ i, decode w = some i ∧ ports w = driveFields i (idlePorts w) := by
  unfold ports
  cases decode w with
  | none => exact .inl ⟨rfl, rfl⟩
  | some i => exact .inr ⟨i, rfl, rfl⟩

theorem ports_hit (w : Word) : (ports w).hit = hit w := by
  obtain ⟨-, h⟩ | ⟨i, -, h⟩ := ports_cases w
  · rw [h]; rfl
  · rw [h, driveFields_hit]; rfl

theorem ports_opcode (w : Word) : (ports w).opcode = (opcodeOf w).setWidth 6 := by
  obtain ⟨-, h⟩ | ⟨i, -, h⟩ := ports_cases w
  · rw [h]; rfl
  · rw [h, driveFields_opcode]; rfl

theorem ports_text (w : Word) : (ports w).text = line w := by
  obtain ⟨-, h⟩ | ⟨i, -, h⟩ := ports_cases w
  · rw [h]; rfl
  · rw [h, driveFields_text]; rfl

theorem hit_iff (w : Word) : hit w = true ↔ ∃ i, decode w = some i :=
  Option.isSome_iff_exists

/-! ## The ports of a word with a kind's opcode -/

/-- A word whose bits 31..26 hold a kind's opcode drives the fields which that kind's field extractor reads (R33). -/
theorem ports_of_wordField (w : Word) (k : Kind) (h : wordField w 26 6 = k.opcode.toNat) :
    ports w = driveFields (decodeKind decidedParams w k) (idlePorts w) := by
  have hdecode : decode w = some (decodeKind decidedParams w k) := decodeWith_of_wordField decidedParams w k h
  rw [ports, hdecode]

/-- A port as wide as a field loses none of it. -/
theorem toNat_setWidth_readField8 (w : Word) (r : FieldRange 8) :
    ((readField8 w r).setWidth r.width).toNat = wordField w r.lo r.width := by
  rw [BitVec.toNat_setWidth, Nat.mod_eq_of_lt (readField8_lt w r), toNat_readField8_eq_wordField]

theorem toInt_beqlOffset_lowHalf (w : Word) :
    (beqlOffset false (readField16 w lowHalfField)).toInt = 4 * (wordField w 0 16 : Int) := by
  rw [toInt_beqlOffset_zext, toNat_readField16_eq_wordField]
  rfl

/-- Settles O43: the decoded fields, each at a port of its width. -/
theorem portsFollowTheDecodedWord : Obligations.PortsFollowTheDecodedWord := by
  intro w
  have hrs := toNat_setWidth_readField8 w rsField
  have hrt := toNat_setWidth_readField8 w rtField
  have hlow := toNat_readField16_eq_wordField w lowHalfField
  have hop : (ports w).opcode.toNat = wordField w 26 6 := by
    rw [ports_opcode]
    exact toNat_setWidth_readField8 w opcodeField
  have hhit : (ports w).hit = true ↔ ∃ i, decode w = some i := by rw [ports_hit, hit_iff]
  refine ⟨hhit, hop, ports_text w, fun h => ?andi, fun h => ?ori, fun h => ?lui, fun h => ?lw, fun h => ?mtc0,
    fun h => ?beql⟩
  case andi =>
    rw [ports_of_wordField w .andi h]
    exact ⟨rfl, hrs, hrt, hlow⟩
  case ori =>
    rw [ports_of_wordField w .ori h]
    exact ⟨rfl, hrs, hrt, hlow⟩
  case lui =>
    rw [ports_of_wordField w .lui h]
    exact ⟨rfl, hrs, hlow⟩
  case lw =>
    rw [ports_of_wordField w .lw h]
    exact ⟨rfl, hrs, hrt, hlow⟩
  case mtc0 =>
    rw [ports_of_wordField w .mtc0 h]
    exact ⟨rfl, hrt, toNat_setWidth_readField8 w rdField,
      toNat_setWidth_readField8 w (selField decidedParams.mtc0SelHi)⟩
  case beql =>
    rw [ports_of_wordField w .beql h]
    exact ⟨rfl, hrs, hrt, toInt_beqlOffset_lowHalf w⟩

end Sys2Proof.Machine
end

section
/-! SUPPORT. The caller's buffer and the words it presents: word i of a loaded file, the output of one word more, and
what a step keeps of the buffer and of the invariant. -/

namespace Sys2Proof.Machine

/-! ## The words of a loaded file -/

/-- A word lies whole within the file: there is no partial word (R42, R46). -/
theorem Memory.lt_length_of_wordAt_ofBytes {bs : List Byte} {i : Nat} {w : Word}
    (h : (Memory.ofBytes bs).wordAt i = some w) : 4 * i + 3 < bs.length := by
  obtain ⟨-, -, -, b3, -, -, -, h3, -⟩ := Memory.wordAt_eq_some h
  rw [Memory.read_ofBytes] at h3
  exact (List.getElem?_eq_some_iff.1 h3).1

/-- Word 0 of a file is made of its first four bytes. -/
@[simp] theorem Memory.wordAt_ofBytes_zero (b0 b1 b2 b3 : Byte) (rest : List Byte) :
    (Memory.ofBytes (b0 :: b1 :: b2 :: b3 :: rest)).wordAt 0 = some (wordOfBytes b0 b1 b2 b3) :=
  Memory.wordAt_of_reads rfl rfl rfl rfl

/-- Every later word of a file is a word of what follows the first four bytes: no gaps and no overlap (R43). -/
@[simp] theorem Memory.wordAt_ofBytes_succ (b0 b1 b2 b3 : Byte) (rest : List Byte) (i : Nat) :
    (Memory.ofBytes (b0 :: b1 :: b2 :: b3 :: rest)).wordAt (i + 1) = (Memory.ofBytes rest).wordAt i := by
  have hread (a : Nat) :
      (Memory.ofBytes (b0 :: b1 :: b2 :: b3 :: rest)).read (a + 4) = (Memory.ofBytes rest).read a := by
    simp
  simp only [Memory.wordAt, Nat.mul_add, Nat.mul_one, Nat.add_right_comm _ 4, hread]

/-- A file that holds a word begins with the four bytes of word 0. -/
theorem Memory.exists_eq_cons_of_wordAt_ofBytes {bs : List Byte} {i : Nat} {w : Word}
    (h : (Memory.ofBytes bs).wordAt i = some w) : ∃ b0 b1 b2 b3 rest, bs = b0 :: b1 :: b2 :: b3 :: rest := by
  have hlen : 3 < bs.length := by
    have := Memory.lt_length_of_wordAt_ofBytes h
    omega
  match bs, hlen with
  | b0 :: b1 :: b2 :: b3 :: rest, _ => exact ⟨b0, b1, b2, b3, rest, rfl⟩

/-- One word more adds its line and its terminator to the output, and nothing else (R115). -/
theorem runOutput_succ_of_wordAt {i : Nat} {bs : List Byte} {w : Word} (h : (Memory.ofBytes bs).wordAt i = some w) :
    runOutput (i + 1) bs = runOutput i bs ++ line w ++ ['\n'] := by
  induction i generalizing bs with
  | zero =>
    obtain ⟨b0, b1, b2, b3, rest, rfl⟩ := Memory.exists_eq_cons_of_wordAt_ofBytes h
    rw [Memory.wordAt_ofBytes_zero, Option.some.injEq] at h
    simp [runOutput, h]
  | succ i ih =>
    obtain ⟨b0, b1, b2, b3, rest, rfl⟩ := Memory.exists_eq_cons_of_wordAt_ofBytes h
    rw [Memory.wordAt_ofBytes_succ] at h
    simp [runOutput, ih h]

/-! ## The decoder and the step -/

/-- The decoder on bytes answers the instruction that the first four of them decode to (R42, R104). -/
theorem decode_of_decodeBytes {b0 b1 b2 b3 : Byte} {rest rest' : List Byte} {i : Instr}
    (h : decodeBytes (b0 :: b1 :: b2 :: b3 :: rest) = .ok (i, rest')) : decode (wordOfBytes b0 b1 b2 b3) = some i := by
  rw [decodeBytes] at h
  split at h
  · rename_i j hj
    obtain ⟨rfl, -⟩ := Prod.mk.inj (Except.ok.inj h)
    exact hj
  · cases h

/-- The decoder on a request of 32 bits answers what those bits decode to. -/
theorem decode_of_decodeTableWord {w : Nat} {i : Instr} (h : decodeTableWord 32 w = some i) :
    decode (BitVec.ofNat 32 (w % 2 ^ 32)) = some i := by
  rw [decodeTableWord, if_pos (Nat.le_refl 32)] at h
  split at h
  · rename_i j rest hj
    have hdecode := decode_of_decodeBytes hj
    rwa [wordOfBytes_bytes, Option.some.inj h] at hdecode
  · cases h

/-- A recognised word that is presented does what its decoded instruction does (R104). -/
theorem step_of_decode {s : State} {w : Word} {i : Instr} (h : s.Presents w) (hi : decode w = some i) :
    step s = exec i s.advance := by
  obtain ⟨hphase, hword, hfetch⟩ := h
  rw [step_of_word hphase hword hfetch, transact, hi]

/-- After the last word a step changes nothing (log entry 4). -/
theorem step_of_no_word {s : State} (hphase : s.phase = .running) (hword : s.hasWord = false) : step s = .next s := by
  simp [step, hphase, hword]

/-- A placed word is the word presented next (log entry 3). -/
theorem State.presents_placeNextWord (s : State) (w : Word) : (s.placeNextWord w).Presents w :=
  ⟨rfl, s.hasWord_placeNextWord w, s.fetch_placeNextWord w⟩

/-! ## The invariant -/

/-- What the invariant says once the file is loaded. -/
theorem State.inv_iff_of_running {s : State} (h : s.phase = .running) :
    s.Inv ↔ s.buffer.wf = true ∧ s.wordNumber ≤ s.wordsToProcess ∧
      s.output = runOutput s.wordNumber s.buffer.bytes := by
  simp [State.Inv, h]

/-- The load gives a state of the invariant, if nothing was printed before it (R402). -/
theorem State.inv_of_load {s : State} (bs : List Byte) (hout : s.output = []) :
    State.Inv { s with phase := .running, buffer := Memory.ofBytes bs, wordNumber := 0 } :=
  (State.inv_iff_of_running rfl).2 ⟨Memory.ofBytes_wf bs, Nat.zero_le _, hout⟩

/-- Presenting a word keeps the invariant: one word more is within n, and its line is the next of the output. -/
theorem State.inv_advance_printLine {s : State} {w : Word} (hinv : s.Inv) (h : s.Presents w) :
    (s.advance.printLine (line w)).Inv := by
  obtain ⟨hphase, hword, hfetch⟩ := h
  obtain ⟨hwf, -, hout⟩ := (State.inv_iff_of_running hphase).1 hinv
  have hwordAt : (Memory.ofBytes s.buffer.bytes).wordAt s.wordNumber = some w := by
    rwa [Memory.ofBytes_bytes _ hwf]
  refine (State.inv_iff_of_running (s := s.advance.printLine (line w)) hphase).2 ⟨hwf, s.hasWord_iff.1 hword, ?_⟩
  simp [runOutput_succ_of_wordAt hwordAt, hout]

/-- Settles O39, by what the step was: the load, one word, or nothing. -/
theorem stepKeepsTheInvariant : Obligations.StepKeepsTheInvariant := by
  intro s t hinv hstep
  obtain ⟨bs, hphase, -, rfl⟩ | ⟨w, hphase, hword, hfetch, rfl⟩ | ⟨-, -, rfl⟩ := step_cases hstep
  · obtain ⟨-, hstart, -⟩ := hinv
    exact State.inv_of_load bs (hstart hphase).2
  · exact State.inv_advance_printLine hinv ⟨hphase, hword, hfetch⟩
  · exact hinv

/-- Settles O33, by what the step was: the load, one word, or nothing. -/
theorem stepsNeverWriteTheBuffer : Obligations.StepsNeverWriteTheBuffer := by
  intro s t hstep
  obtain ⟨bs, hphase, -, rfl⟩ | ⟨w, hphase, -, -, rfl⟩ | ⟨hphase, -, rfl⟩ := step_cases hstep
  · refine ⟨rfl, rfl, rfl, ⟨[], by simp⟩, fun hrun => ?_⟩
    rw [hphase] at hrun
    cases hrun
  · exact ⟨rfl, rfl, hphase, ⟨line w ++ ['\n'], by simp⟩,
      fun _ => ⟨rfl, fun _ => rfl, Nat.le_succ _, Nat.le_refl _⟩⟩
  · exact ⟨rfl, rfl, hphase, ⟨[], by simp⟩, fun _ => ⟨rfl, fun _ => rfl, Nat.le_refl _, Nat.le_succ _⟩⟩

/-- Settles O37: the value of the four bytes read, its six high bits those of the first, and no word without all
four. -/
theorem wordsAreBigEndian : Obligations.WordsAreBigEndian := by
  refine ⟨fun bs i b0 b1 b2 b3 h0 h1 h2 h3 => ?_, fun bs i hlen => ?_⟩
  · have hvalue := wordOfBytes_toNat b0 b1 b2 b3
    rw [← Memory.read_ofBytes] at h0 h1 h2 h3
    refine ⟨_, Memory.wordAt_of_reads h0 h1 h2 h3, hvalue, ?_⟩
    rw [wordField, hvalue]
    omega
  · rw [Option.eq_none_iff_forall_ne_some]
    intro w hw
    exact absurd (Memory.lt_length_of_wordAt_ofBytes hw) (by omega)

/-- Settles O42: the placed word is presented, and the 32 bits decode to the instruction. -/
theorem placedWordIsTheNextStep : Obligations.PlacedWordIsTheNextStep :=
  fun s _ _ h => step_of_decode (s.presents_placeNextWord _) (decode_of_decodeTableWord h)

/-- Settles O29: the four bytes are the word presented. -/
theorem stepRunsTheDecodedInstruction : Obligations.StepRunsTheDecodedInstruction :=
  fun s _ _ _ _ _ _ hphase hlt h0 h1 h2 h3 hdecode =>
    step_of_decode ⟨hphase, s.hasWord_iff.2 hlt, Memory.wordAt_of_reads h0 h1 h2 h3⟩ (decode_of_decodeBytes hdecode)

/-- Settles O38: a word is left to present exactly while the word number is below n (R46). -/
theorem onlyWholeWordsArePresented : Obligations.OnlyWholeWordsArePresented := by
  refine ⟨fun s w ⟨_, hword, _⟩ => ?_, fun s hphase hdone => step_of_no_word hphase ?_⟩
  · rw [State.hasWord_iff, State.wordsToProcess_eq] at hword
    omega
  · rw [← Bool.not_eq_true, State.hasWord_iff, State.wordsToProcess_eq]
    omega

end Sys2Proof.Machine
end

section
/-! SUPPORT. What chooses the decoded value and the line: the opcode alone for the kind (R74) and for the fallback (R75,
R113), and for the rest only the bits of the fields that the kind's extractor reads (R68). -/

namespace Sys2Proof.Machine

/-! ## The opcode -/

/-- The six opcodes, as the values of bits 31..26, are those of the six kinds (R71). -/
theorem mem_opcodes_iff (n : Nat) :
    n ∈ [0x0C, 0x14, 0x0F, 0x23, 0x10, 0x0D] ↔ ∃ k : Kind, n = k.opcode.toNat := by
  constructor
  · intro h
    simp only [List.mem_cons, List.not_mem_nil, or_false] at h
    rcases h with rfl | rfl | rfl | rfl | rfl | rfl
    exacts [⟨.andi, rfl⟩, ⟨.beql, rfl⟩, ⟨.lui, rfl⟩, ⟨.lw, rfl⟩, ⟨.mtc0, rfl⟩, ⟨.ori, rfl⟩]
  · rintro ⟨k, rfl⟩
    cases k <;> decide

/-- A word whose bits 31..26 hold no kind's opcode decodes to nothing (R73, R75). -/
theorem decode_eq_none_of_wordField {w : Word} (h : ∀ k : Kind, wordField w 26 6 ≠ k.opcode.toNat) :
    decode w = none :=
  (decodeWith_eq_none_iff decidedParams w).2 fun k hk => h k (by rw [← toNat_opcodeOf_eq_wordField, hk])

/-- The kind of a word is the decode_table's entry for its opcode (R74, R104). -/
theorem map_kind_decode (w : Word) : (decode w).map Instr.kind = decodeTable (opcodeOf w) := by
  simp [decode, decodeWith, Function.comp_def]

theorem opcodeOf_eq_of_wordField {w v : Word} (h : wordField w 26 6 = wordField v 26 6) : opcodeOf w = opcodeOf v :=
  BitVec.eq_of_toNat_eq (by simpa only [toNat_opcodeOf_eq_wordField] using h)

theorem opcodeOf_lt (w : Word) : (opcodeOf w).toNat < 64 := readField8_lt w opcodeField

/-! ## The line -/

theorem line_of_decode_none {w : Word} (h : decode w = none) : line w = fallback (opcodeOf w) := by
  have h' : decodeWith decidedParams w = none := h
  rw [line, lineWith, h']

/-- A line shows the decoded value and the opcode, and nothing else of the word (R114). -/
theorem line_congr {w v : Word} (hd : decode w = decode v) (ho : opcodeOf w = opcodeOf v) : line w = line v := by
  have hd' : decodeWith decidedParams w = decodeWith decidedParams v := hd
  rw [line, line, lineWith, lineWith, hd', ho]

/-- The six binary digits of an opcode read back as the opcode (R113). -/
theorem readDigits_bin6 : ∀ op : U8, op.toNat < 64 → readDigits 2 0 (bin6 op) = some op.toNat := by
  decide

/-! ## Ignored bits -/

/-- A field that meets none of the ranges has the same bits in two words that agree outside them. -/
theorem fieldBits_of_agreeOutside {ranges : List (Nat × Nat)} {w v : Word} {c : Nat} (h : AgreeOutside ranges w v)
    (r : FieldRange c) (hr : ∀ x ∈ ranges, r.hi < x.1 ∨ x.2 < r.lo) :
    fieldBits w r.lo r.hi = fieldBits v r.lo r.hi := by
  have hordered := r.ordered
  have hword := r.inWord
  apply BitVec.eq_of_getLsbD_eq
  intro k _
  rw [getLsbD_fieldBits, getLsbD_fieldBits]
  by_cases hk : k < r.hi - r.lo + 1
  · rw [h (r.lo + k) (by omega) fun x hx hin => by have := hr x hx; omega]
  · simp [hk]

theorem readField8_of_agreeOutside {ranges : List (Nat × Nat)} {w v : Word} (h : AgreeOutside ranges w v)
    (r : FieldRange 8) (hr : ∀ x ∈ ranges, r.hi < x.1 ∨ x.2 < r.lo) : readField8 w r = readField8 v r :=
  congrArg (BitVec.setWidth 8) (fieldBits_of_agreeOutside h r hr)

theorem readField16_of_agreeOutside {ranges : List (Nat × Nat)} {w v : Word} (h : AgreeOutside ranges w v)
    (r : FieldRange 16) (hr : ∀ x ∈ ranges, r.hi < x.1 ∨ x.2 < r.lo) : readField16 w r = readField16 v r :=
  congrArg (BitVec.setWidth 16) (fieldBits_of_agreeOutside h r hr)

/-- Two words with one kind's opcode, of which its field extractor makes the same instruction, decode alike and print the
same line. -/
theorem decode_line_congr {w v : Word} (k : Kind) (hop : wordField w 26 6 = k.opcode.toNat)
    (ho : opcodeOf w = opcodeOf v) (hfields : decodeKind decidedParams w k = decodeKind decidedParams v k) :
    decode w = decode v ∧ line w = line v := by
  have hopv : wordField v 26 6 = k.opcode.toNat := by
    rw [← toNat_opcodeOf_eq_wordField, ← ho, toNat_opcodeOf_eq_wordField, hop]
  have hd : decode w = decode v := by
    rw [decode, decode, decodeWith_of_wordField _ w k hop, decodeWith_of_wordField _ v k hopv, hfields]
  exact ⟨hd, line_congr hd ho⟩

/-! ## The statements of the encoding -/

/-- Settles O13: the opcode reads back as the instruction's kind, and that kind's field extractor reads every operand
back. -/
theorem decodeOfEncodeIsTheInstruction : Obligations.DecodeOfEncodeIsTheInstruction :=
  ⟨decodeWith_encodeOver, decodeWith_encodeOver decidedParams 0⟩

/-- Settles O6: the opcode is a kind's, or the line is the fallback of an opcode below 64. -/
theorem decodeIsTotalOverTheOpcodes : Obligations.DecodeIsTotalOverTheOpcodes := by
  intro w
  rw [mem_opcodes_iff]
  refine ⟨fun ⟨k, hk⟩ => ⟨_, decodeWith_of_wordField decidedParams w k hk⟩, fun hno => ?_⟩
  have hnone : decode w = none := decode_eq_none_of_wordField (not_exists.1 hno)
  refine ⟨hnone, bin6 (opcodeOf w), rfl, ?_, ?_⟩
  · rw [readDigits_bin6 _ (opcodeOf_lt w), toNat_opcodeOf_eq_wordField]
  · rw [line_of_decode_none hnone, fallback, toNat_opcodeOf_eq_wordField]
    rfl

/-- Settles O15: no ignored bit lies in the opcode or in a field that the kind's extractor reads. -/
theorem ignoredBitsChangeNothing : Obligations.IgnoredBitsChangeNothing := by
  intro w v
  refine ⟨fun hop h => ?lui, fun hop h => ?mtc0, fun hnone h => ?unrecognised⟩
  case lui =>
    have hrt := readField8_of_agreeOutside h (luiRtField decidedParams.luiRtLo) (by decide)
    have himm := readField16_of_agreeOutside h lowHalfField (by decide)
    refine decode_line_congr .lui hop (readField8_of_agreeOutside h opcodeField (by decide)) ?_
    rw [decodeKind, decodeKind, decodeLui, decodeLui, hrt, himm]
  case mtc0 =>
    have hrt := readField8_of_agreeOutside h rtField (by decide)
    have hrd := readField8_of_agreeOutside h rdField (by decide)
    have hsel := readField8_of_agreeOutside h (selField decidedParams.mtc0SelHi) (by decide)
    refine decode_line_congr .mtc0 hop (readField8_of_agreeOutside h opcodeField (by decide)) ?_
    rw [decodeKind, decodeKind, decodeMtc0, decodeMtc0, hrt, hrd, hsel]
  case unrecognised =>
    have ho : opcodeOf w = opcodeOf v := readField8_of_agreeOutside h opcodeField (by decide)
    have hnonev : decode v = none :=
      (decodeWith_eq_none_iff decidedParams v).2 (ho ▸ (decodeWith_eq_none_iff decidedParams w).1 hnone)
    have hd : decode w = decode v := hnone.trans hnonev.symm
    exact ⟨hd, line_congr hd ho⟩

/-- Settles O16: the kind is the table's entry for the opcode, in which no other bit of the word occurs. -/
theorem opcodeAloneChoosesTheKind : Obligations.OpcodeAloneChoosesTheKind := by
  have hkind (w : Word) (k : Kind) (h : wordField w 26 6 = k.opcode.toNat) :
      (decode w).map Instr.kind = some k := by
    have hd : decode w = some (decodeKind decidedParams w k) := decodeWith_of_wordField decidedParams w k h
    rw [hd, Option.map_some, kind_decodeKind]
  refine ⟨fun w v h => ?_, fun w => hkind w .mtc0, fun w => hkind w .lui⟩
  rw [map_kind_decode, map_kind_decode, opcodeOf_eq_of_wordField h]

/-- Settles O5, entry by entry of the decode_table. -/
theorem decodeTableNamesSixKinds : Obligations.DecodeTableNamesSixKinds := by
  unfold Obligations.DecodeTableNamesSixKinds
  decide

/-- Settles O17, by decoding each of the eight words. -/
theorem writtenOutWordsDecode : Obligations.WrittenOutWordsDecode := by
  unfold Obligations.WrittenOutWordsDecode
  decide

end Sys2Proof.Machine
end

section
/-! SUPPORT. The word rebuilt from its own fields (R106): a field read and put back leaves the word as it was. -/

namespace Sys2Proof

/-- An 8-bit container put back where it was read changes nothing. -/
@[simp] theorem setField_readField8 (w : Word) (r : FieldRange 8) :
    setField r ((readField8 w r).setWidth 32) w = w := by
  have hfits := r.width_le
  have hwidth := r.lo_add_width
  apply setField_of_bits
  intro k hlo hhi
  rw [BitVec.getLsbD_setWidth, getLsbD_readField8]
  simp [show k - r.lo < 32 by omega, show k - r.lo < r.width by omega, show r.lo + (k - r.lo) = k by omega]

/-- A value whose low half is that of the word, put at the low half, changes nothing. -/
theorem setField_lowHalf_of_bits {v w : Word}
    (h : ∀ k, k < 16 → v.getLsbD k = (readField16 w lowHalfField).getLsbD k) : setField lowHalfField v w = w := by
  apply setField_of_bits
  intro k _ hhi
  have hk : k < 16 := Nat.lt_succ_iff.2 hhi
  rw [show k - lowHalfField.lo = k from rfl, h k hk, getLsbD_readField16]
  simp [lowHalfField, FieldRange.width, hk]

@[simp] theorem setField_readField16 (w : Word) :
    setField lowHalfField ((readField16 w lowHalfField).setWidth 32) w = w := by
  apply setField_lowHalf_of_bits
  intro k hk
  simp [show k < 32 by omega]

/-- The BEQL offset shifted back down has the bits of its raw field, under either setting of `BEQL_SEXT` (R70). -/
theorem getLsbD_beqlOffset_shiftRight (sext : Bool) (f : U16) (k : Nat) (hk : k < 16) :
    (beqlOffset sext f >>> 2).getLsbD k = f.getLsbD k := by
  have hlow : 1 < 2 + k := by omega
  have hhigh : 2 + k < 32 := by omega
  cases sext with
  | false => simp [beqlOffset, hk, hlow, hhigh]
  | true => simp [beqlOffset, hk, hlow, hhigh, BitVec.getElem_signExtend]

@[simp] theorem setField_beqlOffset (sext : Bool) (w : Word) :
    setField lowHalfField (beqlOffset sext (readField16 w lowHalfField) >>> 2) w = w :=
  setField_lowHalf_of_bits (getLsbD_beqlOffset_shiftRight sext _)

/-- Under every setting of R7, the operands that a kind's field extractor reads, put back, change nothing. -/
theorem setOperands_decodeKind (p : Params) (w : Word) (k : Kind) : setOperands p (decodeKind p w k) w = w := by
  cases k with
  | andi => simp [decodeKind, decodeAndi, setOperands]
  | ori => simp [decodeKind, decodeOri, setOperands]
  | lui => simp [decodeKind, decodeLui, setOperands]
  | lw => simp [decodeKind, decodeLw, setOperands]
  | mtc0 => simp [decodeKind, decodeMtc0, setOperands]
  | beql => simp [decodeKind, decodeBeql, setOperands]

/-- Under every setting of R7, the word rebuilt from what it decodes to, ignored bits from the word, is the word. -/
theorem encodeOver_of_decodeWith {p : Params} {w : Word} {i : Instr} (h : decodeWith p w = some i) :
    encodeOver p w i = w := by
  obtain ⟨k, hop, rfl⟩ := (decodeWith_eq_some_iff p w i).1 h
  rw [encodeOver, setOperands_decodeKind, kind_decodeKind, ← hop]
  exact setField_readField8 w opcodeField

/-- The offset of a BEQL word is made from its low half (R200). -/
theorem offset_of_decodeWith_beql {p : Params} {w : Word} {rs rt : U8} {offset : I32}
    (h : decodeWith p w = some (.beql rs rt offset)) :
    offset = beqlOffset p.beqlSext (readField16 w lowHalfField) := by
  obtain ⟨k, -, hk⟩ := (decodeWith_eq_some_iff p w _).1 h
  cases k <;> cases hk
  rfl

/-- With `BEQL_SEXT` clear the offset shifted back down is the raw field and nothing above it (R70). -/
theorem toNat_beqlOffset_zext_shiftRight (f : U16) : (beqlOffset false f >>> 2).toNat = f.toNat := by
  have hint := toInt_beqlOffset_zext f
  have hcond := BitVec.toInt_eq_toNat_cond (beqlOffset false f)
  rw [BitVec.toNat_ushiftRight, Nat.shiftRight_eq_div_pow]
  split at hcond <;> omega

/-- Settles O14: the operands and then the opcode go back where they were read, and the BEQL offset is its raw field
shifted up. -/
theorem rebuildingFromTheFieldsGivesTheWord : Obligations.RebuildingFromTheFieldsGivesTheWord := by
  refine ⟨fun w i h => encodeOver_of_decodeWith h, fun w rs rt offset h => ?_⟩
  rw [offset_of_decodeWith_beql h]
  exact (toNat_beqlOffset_zext_shiftRight _).trans (Machine.toNat_readField16_eq_wordField w lowHalfField)

end Sys2Proof
end

section
/-! SUPPORT. The extractor and its two entry points: the container of a width, what a request within the precondition
answers, and what the others are refused by (R100 to R102). -/

namespace Sys2Proof

/-! ## The container of a width -/

theorem containerBits_mem (width : Nat) : containerBits width ∈ [8, 16, 32, 64] := by
  unfold containerBits
  split_ifs <;> simp

theorem le_containerBits {width : Nat} (h : width ≤ 64) : width ≤ containerBits width := by
  unfold containerBits
  split_ifs <;> omega

/-- No container that holds the width is smaller. -/
theorem containerBits_le {width m : Nat} (hm : m ∈ [8, 16, 32, 64]) (h : width ≤ m) : containerBits width ≤ m := by
  simp only [List.mem_cons, List.not_mem_nil, or_false] at hm
  unfold containerBits
  split_ifs <;> omega

/-! ## What a request answers -/

/-- Within the precondition, and no wider than the largest container, the extractor answers the bits lo..hi (R100). -/
theorem exists_extract_eq_ok {n : Nat} (v : BitVec n) {lo hi : Nat} (hle : lo ≤ hi) (hlt : hi < n)
    (hwidth : hi - lo + 1 ≤ 64) :
    ∃ r, extract v lo hi = .ok r ∧ r.toNat = v.toNat / 2 ^ lo % 2 ^ (hi - lo + 1) := by
  refine ⟨_, by rw [extract, if_pos ⟨hle, hlt⟩, if_pos hwidth], ?_⟩
  have hbits := Nat.mod_lt (v.toNat / 2 ^ lo) (Nat.two_pow_pos (hi - lo + 1))
  have hcontainer : 2 ^ (hi - lo + 1) ≤ 2 ^ containerBits (hi - lo + 1) :=
    Nat.pow_le_pow_right (by omega) (le_containerBits hwidth)
  rw [BitVec.toNat_setWidth, toNat_fieldBits, Nat.mod_eq_of_lt (hbits.trans_le hcontainer)]

/-- The same of a word, which has no range too wide. -/
theorem exists_extract_word_eq_ok (w : Word) {lo hi : Nat} (hle : lo ≤ hi) (hlt : hi < 32) :
    ∃ r, extract w lo hi = .ok r ∧ r.toNat = w.toNat / 2 ^ lo % 2 ^ (hi - lo + 1) :=
  exists_extract_eq_ok w hle hlt (by omega)

theorem exists_extract8_eq_ok (w : Word) {lo hi : Nat} (hle : lo ≤ hi) (hlt : hi < 32) (hwidth : hi - lo + 1 ≤ 8) :
    ∃ r, extract8 w lo hi = .ok r ∧ r.toNat = w.toNat / 2 ^ lo % 2 ^ (hi - lo + 1) :=
  ⟨_, extract8_field w ⟨lo, hi, hle, hlt, hwidth⟩, toNat_readField8 w _⟩

theorem exists_extract16_eq_ok (w : Word) {lo hi : Nat} (hle : lo ≤ hi) (hlt : hi < 32) (hwidth : hi - lo + 1 ≤ 16) :
    ∃ r, extract16 w lo hi = .ok r ∧ r.toNat = w.toNat / 2 ^ lo % 2 ^ (hi - lo + 1) :=
  ⟨_, extract16_field w ⟨lo, hi, hle, hlt, hwidth⟩, toNat_readField16 w _⟩

/-! ## What the other requests are refused by -/

theorem extract_eq_contractViolation_iff {n : Nat} (v : BitVec n) (lo hi : Nat) :
    extract v lo hi = .error .contractViolation ↔ ¬ (lo ≤ hi ∧ hi < n) := by
  by_cases h : lo ≤ hi ∧ hi < n
  · rw [extract, if_pos h]
    split <;> simp [h]
  · simp [extract, h]

section
variable {c lo hi : Nat} {α : Type} (f : FieldRange c → α)

/-- An entry point, which reads the range that its request names, refuses what lies outside the precondition (R101). -/
theorem map_request_eq_contractViolation_iff :
    (FieldRange.request c lo hi).map f = .error .contractViolation ↔ ¬ (lo ≤ hi ∧ hi < 32) := by
  obtain ⟨r, h, rfl, rfl⟩ | ⟨h, hle, hlt, -⟩ | ⟨h, hout⟩ := FieldRange.request_cases c lo hi
  · simp [h, Except.map, r.ordered, r.inWord]
  · simp [h, Except.map, hle, hlt]
  · simp [h, Except.map, hout]

/-- What lies within the precondition and is wider than its container it refuses under the other name (log entry 22). -/
theorem map_request_eq_widerThanContainer (hle : lo ≤ hi) (hlt : hi < 32) (hwidth : c < hi - lo + 1) :
    (FieldRange.request c lo hi).map f = .error .widerThanContainer := by
  rw [FieldRange.request, dif_pos ⟨hle, hlt⟩, dif_neg (by omega), Except.map]

end

/-! ## The statements about the extractor -/

/-- Settles O1: a value of at most 64 bits has no range too wide for every container. -/
theorem extractorReturnsTheRange : Obligations.ExtractorReturnsTheRange := by
  intro n v lo hi hn hle hlt
  have hn64 : n ≤ 64 := by
    simp only [List.mem_cons, List.not_mem_nil, or_false] at hn
    omega
  have hwidth : hi - lo + 1 ≤ 64 := by omega
  obtain ⟨r, hr, hvalue⟩ := exists_extract_eq_ok v hle hlt hwidth
  exact ⟨r, hr, hvalue, containerBits_mem _, le_containerBits hwidth, fun m hm => containerBits_le hm⟩

/-- Settles O3: the whole range cuts nothing off, and one bit is the word's value there modulo 2. -/
theorem extractorBoundaryRanges : Obligations.ExtractorBoundaryRanges := by
  refine ⟨fun w => ⟨rfl, ?_⟩, fun w k hk => ⟨by rw [Nat.sub_self]; rfl, ?_⟩⟩
  · obtain ⟨r, hr, hvalue⟩ := exists_extract_word_eq_ok w (lo := 0) (hi := 31) (by decide) (by decide)
    refine ⟨r, hr, ?_⟩
    rw [hvalue, Nat.pow_zero, Nat.div_one]
    exact Nat.mod_eq_of_lt w.isLt
  · obtain ⟨r, hr, hvalue⟩ := exists_extract_word_eq_ok w (Nat.le_refl k) hk
    refine ⟨r, hr, ?_⟩
    rw [hvalue, Nat.sub_self, BitVec.getLsbD, Nat.testBit_eq_decide_div_mod_eq]
    have hmod := Nat.mod_two_eq_zero_or_one (w.toNat / 2 ^ k)
    rcases hmod with h | h <;> simp [h]

/-- Settles O4: within its container an entry point answers the same bits of the word as the extractor. -/
theorem entryPointsAgreeWithExtractor : Obligations.EntryPointsAgreeWithExtractor := by
  intro w lo hi hle hlt
  obtain ⟨r, hr, hvalue⟩ := exists_extract_word_eq_ok w hle hlt
  refine ⟨fun hwidth => ?_, fun hwidth => ?_, map_request_eq_widerThanContainer _ hle hlt,
    map_request_eq_widerThanContainer _ hle hlt⟩
  · obtain ⟨r8, hr8, hvalue8⟩ := exists_extract8_eq_ok w hle hlt hwidth
    exact ⟨r, r8, hr, hr8, hvalue8.trans hvalue.symm⟩
  · obtain ⟨r16, hr16, hvalue16⟩ := exists_extract16_eq_ok w hle hlt hwidth
    exact ⟨r, r16, hr, hr16, hvalue16.trans hvalue.symm⟩

/-- Settles O2: only a request outside the precondition is a contract violation, and the decoder's fields are ranges
within it. -/
theorem extractorRefusesOutOfRange : Obligations.ExtractorRefusesOutOfRange := by
  refine ⟨fun n v lo hi => extract_eq_contractViolation_iff v lo hi,
    fun w lo hi => ⟨map_request_eq_contractViolation_iff _, map_request_eq_contractViolation_iff _⟩,
    fun w => ⟨fun range hrange => ?_, extract8_field w opcodeField, extract8_field w rsField, extract8_field w rtField,
      extract8_field w rdField, extract8_field w (luiRtField decidedParams.luiRtLo),
      extract8_field w (selField decidedParams.mtc0SelHi), extract16_field w lowHalfField⟩⟩
  have hin : ∀ x ∈ [(26, 31), (21, 25), (16, 20), (11, 15), (0, 3), (0, 15)], x.1 ≤ x.2 ∧ x.2 < 32 := by decide
  obtain ⟨hle, hlt⟩ := hin range hrange
  obtain ⟨r, hr, -⟩ := exists_extract_word_eq_ok w hle hlt
  exact ⟨r, hr⟩

end Sys2Proof
end

section
/-! SUPPORT. The numerals of R110 and R111: a text reads as a number, without a leading zero, exactly if it is the digits
written for that number. -/

namespace Sys2Proof.Machine

/-! ## Reading digits -/

/-- A digit character is the one written for its value. -/
theorem digitChar_of_digitValue {c : Char} {d : Nat} (h : digitValue c = some d) : Nat.digitChar d = c := by
  have hall : ∀ n < 103, ∀ d ∈ digitValue (Char.ofNat n), Nat.digitChar d = Char.ofNat n := by decide
  have hlt : c.toNat < 103 := by
    unfold digitValue at h
    split_ifs at h <;> omega
  rw [← Char.ofNat_toNat c] at h ⊢
  exact hall c.toNat hlt d h

/-- The last digit adds its value to the base times what stands before it. -/
theorem readDigits_concat_eq_some_iff (base acc : Nat) (t : Text) (c : Char) (v : Nat) :
    readDigits base acc (t ++ [c]) = some v ↔
      ∃ a d, readDigits base acc t = some a ∧ digitValue c = some d ∧ d < base ∧ v = base * a + d := by
  rw [readDigits_append, Option.bind_eq_some_iff]
  refine exists_congr fun a => ?_
  cases hd : digitValue c with
  | none => simp [readDigits, hd]
  | some d =>
    by_cases hlt : d < base
    · simp [readDigits, hd, hlt, eq_comm]
    · simp [readDigits, hd, hlt]

/-! ## Numerals -/

/-- A text that begins with the digit 0 and is longer than that digit is no numeral. -/
def HasLeadingZero (t : Text) : Prop := ∃ c u, t = '0' :: c :: u

theorem not_hasLeadingZero_singleton (c : Char) : ¬ HasLeadingZero [c] := by
  rintro ⟨_, _, h⟩
  cases h

/-- A leading zero stays one when digits are added at the end, and none arises unless the text was the digit 0. -/
theorem hasLeadingZero_concat_iff {t : Text} (hne : t ≠ []) (c : Char) :
    HasLeadingZero (t ++ [c]) ↔ HasLeadingZero t ∨ t = ['0'] := by
  match t, hne with
  | [a], _ => simp [HasLeadingZero]
  | a :: b :: u, _ => simp [HasLeadingZero]

/-- A numeral is one digit or more, without a leading zero. -/
theorem readNumeral_eq_some_iff {base : Nat} (hb : 1 < base) (t : Text) (v : Nat) :
    readNumeral base t = some v ↔ t ≠ [] ∧ ¬ HasLeadingZero t ∧ readDigits base 0 t = some v := by
  unfold readNumeral
  split
  · simp
  · simp [HasLeadingZero, readDigits, digitValue, show 0 < base by omega]
  · rename_i u hu
    obtain ⟨c, u, rfl⟩ := List.exists_cons_of_ne_nil (l := u) hu
    simp [HasLeadingZero]
  · rename_i hnil _ hzero
    have hne : t ≠ [] := hnil
    have hlead : ¬ HasLeadingZero t := fun ⟨c, u, h⟩ => hzero _ h
    simp [hlead, hne]

/-- The digits written for a number have no leading zero. -/
theorem toDigits_ne_nil_and_not_hasLeadingZero {base : Nat} (hb : 1 < base) (hb' : base ≤ 16) (v : Nat) :
    Nat.toDigits base v ≠ [] ∧ ¬ HasLeadingZero (Nat.toDigits base v) := by
  induction v using Nat.strong_induction_on with
  | _ v ih =>
    by_cases h : v < base
    · rw [Nat.toDigits_of_lt_base h]
      exact ⟨by simp, not_hasLeadingZero_singleton _⟩
    · obtain ⟨hne, hlead⟩ := ih (v / base) (Nat.div_lt_self (by omega) hb)
      rw [Nat.toDigits_of_base_le hb (by omega)]
      refine ⟨by simp, fun hz => ?_⟩
      obtain hz | hz := (hasLeadingZero_concat_iff hne _).1 hz
      · exact hlead hz
      · have hquot : v / base = 0 := toDigits_injective base hb hb' (hz.trans (Nat.toDigits_zero base).symm)
        have := Nat.div_pos (show base ≤ v by omega) (by omega)
        omega

/-- What reads as a number, without a leading zero, is the digits written for it. -/
theorem eq_toDigits_of_readDigits {base : Nat} (hb : 1 < base) {t : Text} {v : Nat} (hne : t ≠ [])
    (hlead : ¬ HasLeadingZero t) (h : readDigits base 0 t = some v) : t = Nat.toDigits base v := by
  induction t using List.reverseRecOn generalizing v with
  | nil => exact absurd rfl hne
  | append_singleton t c ih =>
    obtain ⟨a, d, ha, hd, hlt, rfl⟩ := (readDigits_concat_eq_some_iff ..).1 h
    obtain rfl := digitChar_of_digitValue hd
    by_cases ht : t = []
    · subst ht
      obtain rfl : 0 = a := Option.some.inj ha
      rw [Nat.mul_zero, Nat.zero_add, Nat.toDigits_of_lt_base hlt, List.nil_append]
    · rw [hasLeadingZero_concat_iff ht, not_or] at hlead
      obtain ⟨hlead, hzero⟩ := hlead
      have hta : t = Nat.toDigits base a := ih ht hlead ha
      have hpos : 0 < a := by
        refine Nat.pos_of_ne_zero fun h0 => hzero ?_
        rw [hta, h0, Nat.toDigits_zero]
      rw [← Nat.toDigits_append_toDigits hb hpos hlt, Nat.toDigits_of_lt_base hlt, ← hta]

/-- The one numeral of a number, in every base up to 16. -/
theorem readNumeral_eq_some_iff_eq_toDigits {base : Nat} (hb : 1 < base) (hb' : base ≤ 16) (t : Text) (v : Nat) :
    readNumeral base t = some v ↔ t = Nat.toDigits base v := by
  rw [readNumeral_eq_some_iff hb]
  constructor
  · rintro ⟨hne, hlead, h⟩
    exact eq_toDigits_of_readDigits hb hne hlead h
  · rintro rfl
    obtain ⟨hne, hlead⟩ := toDigits_ne_nil_and_not_hasLeadingZero hb hb' v
    exact ⟨hne, hlead, readDigits_toDigits base v hb hb'⟩

/-- Settles O18: base 10. -/
theorem decIsTheDecimalNumeral : Obligations.DecIsTheDecimalNumeral :=
  fun v t => readNumeral_eq_some_iff_eq_toDigits (by decide) (by decide) t v

/-- Settles O19: base 16 after `0x`; the pattern of a negative number is 2^32 above its value. -/
theorem hexIsThePrefixedNumeral : Obligations.HexIsThePrefixedNumeral := by
  refine ⟨fun v t => ?_, fun v => ?_⟩
  · have hread (d : Text) := readNumeral_eq_some_iff_eq_toDigits (base := 16) (by decide) (by decide) d v
    simp [hread, hex]
  · have hpattern : (if v.toInt < 0 then v.toInt + 2 ^ 32 else v.toInt).toNat = v.toNat := by
      have hlt := v.isLt
      rw [BitVec.toInt_eq_toNat_cond]
      split_ifs <;> omega
    rw [hexI32, hpattern]

end Sys2Proof.Machine
end

section
/-! SUPPORT. What a line tells: its mnemonic, or else six binary digits, and its operands (R112, R113), from which the
decoded value and the opcode come back. -/

namespace Sys2Proof.Machine

/-! ## Separators: characters that no part of a line holds -/

/-- Two texts cut at the first of a character are equal part by part. -/
theorem append_cons_inj {c : Char} {t t' u u' : Text} (ht : c ∉ t) (ht' : c ∉ t')
    (h : t ++ c :: u = t' ++ c :: u') : t = t' ∧ u = u' := by
  obtain ⟨a, rfl, ha⟩ | ⟨a, rfl, ha⟩ := List.append_eq_append_iff.1 h
  · cases a with
    | nil => exact ⟨(List.append_nil t).symm, (List.cons.inj ha).2⟩
    | cons b a =>
      obtain ⟨rfl, -⟩ := List.cons.inj ha
      exact absurd (by simp) ht'
  · cases a with
    | nil => exact ⟨List.append_nil t', (List.cons.inj ha).2.symm⟩
    | cons b a =>
      obtain ⟨rfl, -⟩ := List.cons.inj ha
      exact absurd (by simp) ht

/-- What reads as a number holds digits only. -/
theorem not_mem_of_readDigits {base acc v : Nat} {t : Text} {c : Char} (h : readDigits base acc t = some v)
    (hc : digitValue c = none) : c ∉ t := by
  induction t generalizing acc with
  | nil => exact List.not_mem_nil
  | cons a t ih =>
    rw [readDigits] at h
    split at h
    · rename_i d hd
      split_ifs at h
      rw [List.mem_cons, not_or]
      refine ⟨?_, ih h⟩
      rintro rfl
      rw [hc] at hd
      cases hd
    · cases h

theorem not_mem_dec {c : Char} (hc : digitValue c = none) (v : Nat) : c ∉ dec v :=
  not_mem_of_readDigits (readDigits_toDigits 10 v (by decide) (by decide)) hc

theorem comma_not_mem_hex (v : Nat) : ',' ∉ hex v := by
  have h := not_mem_of_readDigits (readDigits_toDigits 16 v (by decide) (by decide)) (c := ',') rfl
  simpa [hex] using h

theorem comma_not_mem_gprOperand (i : U8) : ',' ∉ gprOperand i := by
  simpa [gprOperand] using not_mem_dec (c := ',') rfl i.toNat

theorem comma_not_mem_cprOperand (i : U8) : ',' ∉ cprOperand i := by
  simpa [cprOperand] using not_mem_dec (c := ',') rfl i.toNat

theorem comma_not_mem_memOperand (offset : U16) (base : U8) : ',' ∉ memOperand offset base := by
  simp [memOperand, not_mem_dec (c := ',') rfl]

/-! ## Operands -/

theorem gprOperand_inj {i j : U8} : gprOperand i = gprOperand j ↔ i = j := by
  refine ⟨fun h => BitVec.eq_of_toNat_eq (dec_injective ?_), congrArg gprOperand⟩
  simpa [gprOperand] using h

theorem cprOperand_inj {i j : U8} : cprOperand i = cprOperand j ↔ i = j := by
  refine ⟨fun h => BitVec.eq_of_toNat_eq (dec_injective ?_), congrArg cprOperand⟩
  simpa [cprOperand] using h

/-- An operand in hexadecimal tells the value of its container. -/
theorem hex_toNat_inj {n : Nat} {v v' : BitVec n} : hex v.toNat = hex v'.toNat ↔ v = v' :=
  ⟨fun h => BitVec.eq_of_toNat_eq (hex_injective h), fun h => by rw [h]⟩

/-- LW's memory operand is cut at its parenthesis. -/
theorem memOperand_inj {offset offset' : U16} {base base' : U8} :
    memOperand offset base = memOperand offset' base' ↔ offset = offset' ∧ base = base' := by
  refine ⟨fun h => ?_, fun ⟨hoff, hbase⟩ => by rw [hoff, hbase]⟩
  simp only [memOperand, List.append_assoc, List.singleton_append] at h
  obtain ⟨hoff, hbase⟩ := append_cons_inj (not_mem_dec rfl _) (not_mem_dec rfl _) h
  exact ⟨BitVec.eq_of_toNat_eq (dec_injective hoff),
    BitVec.eq_of_toNat_eq (dec_injective (List.append_cancel_right hbase))⟩

/-- As many operands, none of which holds a comma, are told apart when they are joined (R112). -/
theorem joinOperands_injective : ∀ {ts us : List Text}, ts.length = us.length → (∀ t ∈ ts, ',' ∉ t) →
    (∀ u ∈ us, ',' ∉ u) → joinOperands ts = joinOperands us → ts = us
  | [], [], _, _, _, _ => rfl
  | [t], [u], _, _, _, h => congrArg (fun x => [x]) h
  | t :: t' :: ts, u :: u' :: us, hlen, hts, hus, h => by
    rw [List.forall_mem_cons] at hts hus
    simp only [joinOperands, List.append_assoc, List.cons_append, List.nil_append] at h
    obtain ⟨ht, htail⟩ := append_cons_inj hts.1 hus.1 h
    rw [ht, joinOperands_injective (Nat.succ.inj hlen) hts.2 hus.2 (List.cons.inj htail).2]

/-! ## The layout of a line -/

/-- The mnemonic that a kind's line begins with (R131 to R201). -/
def mnemonic : Kind → Text
  | .andi => ['a', 'n', 'd', 'i']
  | .ori => ['o', 'r', 'i']
  | .lui => ['l', 'u', 'i']
  | .lw => ['l', 'w']
  | .mtc0 => ['m', 't', 'c', '0']
  | .beql => ['b', 'e', 'q', 'l']

/-- The operands of an instruction's line, in the order of its template (R131 to R201). -/
def operands : Instr → List Text
  | .andi rs rt immediate => [gprOperand rt, gprOperand rs, hex immediate.toNat]
  | .ori rs rt immediate => [gprOperand rt, gprOperand rs, hex immediate.toNat]
  | .lui rt immediate => [gprOperand rt, hex immediate.toNat]
  | .lw base rt offset => [gprOperand rt, memOperand offset base]
  | .mtc0 rt rd sel => [gprOperand rt, cprOperand rd, hex sel.toNat]
  | .beql rs rt offset => [gprOperand rs, gprOperand rt, hex offset.toNat]

theorem format_eq_lineText (i : Instr) : format i = lineText (mnemonic i.kind) (operands i) := by
  cases i <;> rfl

/-- The fallback is laid out like a line whose mnemonic is the six binary digits. -/
theorem fallback_eq_lineText (op : U8) : fallback op = lineText (bin6 op) [hex op.toNat] := rfl

theorem mnemonic_injective {k k' : Kind} (h : mnemonic k = mnemonic k') : k = k' := by
  revert h
  cases k <;> cases k' <;> decide

theorem space_not_mem_mnemonic (k : Kind) : ' ' ∉ mnemonic k := by
  cases k <;> decide

/-- A mnemonic is shorter than six characters. -/
theorem mnemonic_ne_bin6 (k : Kind) (op : U8) : mnemonic k ≠ bin6 op := by
  intro h
  have hlen : (mnemonic k).length = 6 := by rw [h]; rfl
  revert hlen
  cases k <;> decide

theorem space_not_mem_bin6 (op : U8) : ' ' ∉ bin6 op := by
  have h (b : Bool) : ' ' ≠ binDigit b := by cases b <;> decide
  simp [bin6, h]

/-- A line is cut at its first space (R112). -/
theorem lineText_inj {m m' : Text} {ts us : List Text} (hm : ' ' ∉ m) (hm' : ' ' ∉ m')
    (h : lineText m ts = lineText m' us) : m = m' ∧ joinOperands ts = joinOperands us := by
  simp only [lineText, List.append_assoc, List.singleton_append] at h
  exact append_cons_inj hm hm' h

theorem comma_not_mem_operands (i : Instr) : ∀ t ∈ operands i, ',' ∉ t := by
  cases i <;>
    simp [operands, comma_not_mem_hex, comma_not_mem_gprOperand, comma_not_mem_cprOperand, comma_not_mem_memOperand]

/-- The kind alone fixes how many operands a line has. -/
theorem length_operands_of_kind {i j : Instr} (h : i.kind = j.kind) : (operands i).length = (operands j).length := by
  cases i <;> cases j <;> cases h <;> rfl

/-- Instructions of one kind are told apart by their operands. -/
theorem operands_injective {i j : Instr} (hkind : i.kind = j.kind) (h : operands i = operands j) : i = j := by
  cases i <;> cases j <;> cases hkind
  all_goals
    simp only [operands, List.cons.injEq, gprOperand_inj, cprOperand_inj, memOperand_inj, hex_toNat_inj] at h
    simp [h]

/-- The formatter loses nothing of a decoded instruction, whatever its field values (R107). -/
theorem format_injective {i j : Instr} (h : format i = format j) : i = j := by
  rw [format_eq_lineText, format_eq_lineText] at h
  obtain ⟨hm, hops⟩ := lineText_inj (space_not_mem_mnemonic _) (space_not_mem_mnemonic _) h
  have hkind := mnemonic_injective hm
  exact operands_injective hkind (joinOperands_injective (length_operands_of_kind hkind) (comma_not_mem_operands i)
    (comma_not_mem_operands j) hops)

/-- No fallback line is the line of an instruction. -/
theorem format_ne_fallback (i : Instr) (op : U8) : format i ≠ fallback op := by
  rw [format_eq_lineText, fallback_eq_lineText]
  intro h
  exact mnemonic_ne_bin6 _ _ (lineText_inj (space_not_mem_mnemonic _) (space_not_mem_bin6 op) h).1

/-- The fallback line tells the opcode: its six binary digits do. -/
theorem fallback_injective {op op' : U8} (hop : op.toNat < 64) (hop' : op'.toNat < 64)
    (h : fallback op = fallback op') : op = op' := by
  rw [fallback_eq_lineText, fallback_eq_lineText] at h
  obtain ⟨hbin, -⟩ := lineText_inj (space_not_mem_bin6 op) (space_not_mem_bin6 op') h
  have hread := readDigits_bin6 op hop
  rw [hbin, readDigits_bin6 op' hop'] at hread
  exact BitVec.eq_of_toNat_eq (Option.some.inj hread).symm

/-! ## The line of a word -/

theorem line_of_decode {w : Word} {i : Instr} (h : decode w = some i) : line w = format i := by
  have h' : decodeWith decidedParams w = some i := h
  rw [line, lineWith, h']

/-- The opcode of a recognised word is its instruction's (R71). -/
theorem opcodeOf_of_decode {w : Word} {i : Instr} (h : decode w = some i) : opcodeOf w = i.kind.opcode := by
  obtain ⟨k, hop, rfl⟩ := (decodeWith_eq_some_iff decidedParams w i).1 h
  rw [kind_decodeKind, hop]

/-- A line tells the decoded value and the opcode. -/
theorem decode_eq_and_opcodeOf_eq_of_line {w v : Word} (h : line w = line v) :
    decode w = decode v ∧ opcodeOf w = opcodeOf v := by
  cases hw : decode w with
  | some i =>
    cases hv : decode v with
    | some j =>
      rw [line_of_decode hw, line_of_decode hv] at h
      obtain rfl := format_injective h
      exact ⟨rfl, (opcodeOf_of_decode hw).trans (opcodeOf_of_decode hv).symm⟩
    | none =>
      rw [line_of_decode hw, line_of_decode_none hv] at h
      exact absurd h (format_ne_fallback i _)
  | none =>
    cases hv : decode v with
    | some j =>
      rw [line_of_decode_none hw, line_of_decode hv] at h
      exact absurd h.symm (format_ne_fallback j _)
    | none =>
      rw [line_of_decode_none hw, line_of_decode_none hv] at h
      exact ⟨rfl, fallback_injective (opcodeOf_lt w) (opcodeOf_lt v) h⟩

/-- Settles O23: the opcode is the value of bits 31..26. -/
theorem lineTellsTheDecodedValue : Obligations.LineTellsTheDecodedValue := by
  intro w v h
  obtain ⟨hdecode, hop⟩ := decode_eq_and_opcodeOf_eq_of_line h
  refine ⟨hdecode, ?_⟩
  rw [← toNat_opcodeOf_eq_wordField, ← toNat_opcodeOf_eq_wordField, hop]

/-- Settles O20: the six binary digits read back as the opcode. -/
theorem fallbackIsTheOpcodeInBinaryAndHex : Obligations.FallbackIsTheOpcodeInBinaryAndHex :=
  fun op hop => ⟨bin6 op, rfl, readDigits_bin6 op hop, rfl⟩

/-- Settles O31: the step writes the line, which is formatted if the word decodes and the fallback if it does not. -/
theorem stepPrintsTheLineOfTheWord : Obligations.StepPrintsTheLineOfTheWord := by
  intro s w h
  rw [step_of_presents h]
  cases hw : decode w with
  | some i => rw [line_of_decode hw]; rfl
  | none => rw [line_of_decode_none hw]; rfl

end Sys2Proof.Machine
end

section
/-! SUPPORT. A complete run (R46, R115): from any state of the invariant in which the file is loaded, enough steps present
every word that is left. -/

namespace Sys2Proof.Machine

/-- While a word is left, the loaded buffer holds it: n counts whole words only (R46, R49). -/
theorem State.exists_presents {s : State} (hinv : s.Inv) (hphase : s.phase = .running) (hword : s.hasWord = true) :
    ∃ w, s.Presents w := by
  obtain ⟨hwf, -, -⟩ := (State.inv_iff_of_running hphase).1 hinv
  have hlt := s.hasWord_iff.1 hword
  rw [State.wordsToProcess_eq, ← Memory.length_bytes] at hlt
  obtain ⟨w, hw⟩ := Memory.wordAt_ofBytes_isSome s.buffer.bytes s.wordNumber (by omega)
  rw [Memory.ofBytes_bytes _ hwf] at hw
  exact ⟨w, hphase, hword, hw⟩

/-- A run that is long enough presents every word that is left, and keeps the buffer and the invariant. -/
theorem exists_run_of_running (k : Nat) {s : State} (hinv : s.Inv) (hphase : s.phase = .running)
    (hk : s.wordsToProcess ≤ s.wordNumber + k) :
    ∃ t : State, Sys2Proof.core.run k s = .next t ∧ t.Inv ∧ t.phase = .running ∧ t.buffer = s.buffer ∧
      t.wordNumber = s.wordsToProcess := by
  induction k generalizing s with
  | zero =>
    obtain ⟨-, hle, -⟩ := (State.inv_iff_of_running hphase).1 hinv
    exact ⟨s, rfl, hinv, hphase, rfl, Nat.le_antisymm hle hk⟩
  | succ k ih =>
    cases hword : s.hasWord with
    | true =>
      obtain ⟨w, hw⟩ := State.exists_presents hinv hphase hword
      rw [core_run_of_next k s _ (step_of_presents hw)]
      refine ih (State.inv_advance_printLine hinv hw) hphase ?_
      simp only [State.printLine_wordNumber, State.advance_wordNumber, State.printLine_wordsToProcess,
        State.advance_wordsToProcess]
      omega
    | false =>
      rw [core_run_of_next k s s (step_of_no_word hphase hword)]
      have hdone : s.wordsToProcess ≤ s.wordNumber := by
        rw [← Nat.not_lt, ← State.hasWord_iff, hword]
        exact Bool.false_ne_true
      exact ih hinv hphase (by omega)

/-- With no count left, or less than a word of bytes, nothing is printed. -/
theorem runOutput_eq_nil {count : Nat} {bs : List Byte} (h : min count (bs.length / 4) = 0) :
    runOutput count bs = [] := by
  match count, bs, h with
  | 0, _, _ => simp [runOutput]
  | _ + 1, b0 :: b1 :: b2 :: b3 :: rest, h =>
    simp only [List.length_cons] at h
    omega
  | _ + 1, [], _ | _ + 1, [_], _ | _ + 1, [_, _], _ | _ + 1, [_, _, _], _ => rfl

/-- The count matters only up to the whole words that the bytes hold (R46). -/
theorem runOutput_min (count : Nat) (bs : List Byte) :
    runOutput (min count (bs.length / 4)) bs = runOutput count bs := by
  by_cases h : min count (bs.length / 4) = 0
  · rw [h, runOutput_eq_nil h, runOutput_eq_nil (Nat.zero_min _)]
  · match count, bs, h with
    | count + 1, b0 :: b1 :: b2 :: b3 :: rest, _ =>
      have hmin : min (count + 1) ((b0 :: b1 :: b2 :: b3 :: rest).length / 4) = min count (rest.length / 4) + 1 := by
        simp only [List.length_cons]
        omega
      rw [hmin, runOutput, runOutput, runOutput_min count rest]
    | _, [], h | _, [_], h | _, [_, _], h | _, [_, _, _], h => exact absurd (by simp) h

/-- The start-up with a readable file makes its bytes the buffer and word 0 the next word (R402). -/
theorem step_of_contents {s : State} {bs : List Byte} (hphase : s.phase = .startup)
    (hfile : s.inputFile = .contents bs) :
    step s = .next { s with phase := .running, buffer := Memory.ofBytes bs, wordNumber := 0 } := by
  simp only [step, hphase, State.loadInputFile, hfile]

/-- A run of one load step and at least n more, of a machine that has printed nothing, ends with the output R115 gives. -/
theorem exists_run_of_contents (k : Nat) {s : State} {bs : List Byte} (hphase : s.phase = .startup)
    (hfile : s.inputFile = .contents bs) (hout : s.output = []) (hk : min s.wordCount (bs.length / 4) ≤ k) :
    ∃ t : State, Sys2Proof.core.run (k + 1) s = .next t ∧ t.output = runOutput s.wordCount bs ∧
      t.wordNumber = min s.wordCount (bs.length / 4) := by
  have hn : State.wordsToProcess { s with phase := .running, buffer := Memory.ofBytes bs, wordNumber := 0 } =
      min s.wordCount (bs.length / 4) := by
    rw [State.wordsToProcess_eq, Memory.len_ofBytes]
  obtain ⟨t, hrun, hinv, hrunning, hbuffer, hnumber⟩ :=
    exists_run_of_running k (State.inv_of_load bs hout) rfl (by rw [hn, Nat.zero_add]; exact hk)
  obtain ⟨-, -, houtput⟩ := (State.inv_iff_of_running hrunning).1 hinv
  refine ⟨t, (core_run_of_next k s _ (step_of_contents hphase hfile)).trans hrun, ?_, hnumber.trans hn⟩
  rw [houtput, hnumber, hn, hbuffer, Memory.bytes_ofBytes, runOutput_min]

/-- Settles O41: the reset state, with the file and the count supplied, has printed nothing. -/
theorem completeRunPrintsEveryLine : Obligations.CompleteRunPrintsEveryLine := by
  intro bs count k hk
  obtain ⟨j, rfl⟩ := Nat.exists_eq_add_of_le' (Nat.le_of_add_right_le hk)
  have hn : min count (bs.length / 4) ≤ j := by omega
  exact exists_run_of_contents j rfl rfl rfl hn

end Sys2Proof.Machine
end

section
/-! SUPPORT. The immediate family (R130 to R141): the decoded values of ANDI, ORI and LUI words, and the templates of their
lines, which are their one effect. -/

namespace Sys2Proof.Machine

/-- Settles O7, kind by kind: the opcode names the kind, and its field extractor reads the bits the rule gives. -/
theorem immediateWordsDecode : Obligations.ImmediateWordsDecode := by
  intro w
  have hrs := toNat_readField8_eq_wordField w rsField
  have hrt := toNat_readField8_eq_wordField w rtField
  have hluiRt := toNat_readField8_eq_wordField w (luiRtField decidedParams.luiRtLo)
  have himm := toNat_readField16_eq_wordField w lowHalfField
  refine ⟨fun hop => ?andi, fun hop => ?ori, fun hop => ?lui⟩
  case andi => exact ⟨_, _, _, decodeWith_of_wordField decidedParams w .andi hop, hrs, hrt, himm⟩
  case ori => exact ⟨_, _, _, decodeWith_of_wordField decidedParams w .ori hop, hrs, hrt, himm⟩
  case lui => exact ⟨_, _, decodeWith_of_wordField decidedParams w .lui hop, hluiRt, himm⟩

/-- Settles O22: the mnemonic gives the kind back, and the operands the fields. -/
theorem formatIsInjective : Obligations.FormatIsInjective :=
  fun _ _ => format_injective

/-- The template of ANDI's line (R131). -/
theorem format_andi (rs rt : U8) (immediate : U16) :
    format (.andi rs rt immediate) =
      "andi r".toList ++ dec rt.toNat ++ ", r".toList ++ dec rs.toNat ++ ", ".toList ++ hex immediate.toNat := by
  simp [format, formatAndi, lineText, joinOperands, gprOperand]

/-- The template of ORI's line (R136). -/
theorem format_ori (rs rt : U8) (immediate : U16) :
    format (.ori rs rt immediate) =
      "ori r".toList ++ dec rt.toNat ++ ", r".toList ++ dec rs.toNat ++ ", ".toList ++ hex immediate.toNat := by
  simp [format, formatOri, lineText, joinOperands, gprOperand]

/-- The template of LUI's line (R141). -/
theorem format_lui (rt : U8) (immediate : U16) :
    format (.lui rt immediate) = "lui r".toList ++ dec rt.toNat ++ ", ".toList ++ hex immediate.toNat := by
  simp [format, formatLui, lineText, joinOperands, gprOperand]

/-- An instruction whose line is `l` adds `l` and the line terminator to the output, and does nothing else (R115). -/
theorem exec_of_format {i : Instr} {l : Text} (h : format i = l) (s : State) :
    exec i s = .next { s with output := s.output ++ l ++ ['\n'] } := by
  rw [exec_eq_printLine, h]
  rfl

/-- Settles O24: the instruction's one effect is its line, which its template spells. -/
theorem immediateInstructionsPrintTheirLines : Obligations.ImmediateInstructionsPrintTheirLines :=
  ⟨fun rs rt immediate => exec_of_format (format_andi rs rt immediate),
    fun rs rt immediate => exec_of_format (format_ori rs rt immediate),
    fun rt immediate => exec_of_format (format_lui rt immediate)⟩

end Sys2Proof.Machine
end

section
/-! SUPPORT. The load family (R160 to R162), with the decoded value of MTC0 words (R180): the fields of LW and MTC0 words,
and the template of LW's line, which is its one effect. -/

namespace Sys2Proof.Machine

/-- Settles O8, kind by kind: the opcode names the kind, and its field extractor reads the bits the rule gives. -/
theorem loadAndCoprocessorWordsDecode : Obligations.LoadAndCoprocessorWordsDecode := by
  intro w
  have hbase := toNat_readField8_eq_wordField w rsField
  have hrt := toNat_readField8_eq_wordField w rtField
  have hrd := toNat_readField8_eq_wordField w rdField
  have hsel := toNat_readField8_eq_wordField w (selField decidedParams.mtc0SelHi)
  have hoffset := toNat_readField16_eq_wordField w lowHalfField
  refine ⟨fun hop => ?lw, fun hop => ?mtc0⟩
  case lw => exact ⟨_, _, _, decodeWith_of_wordField decidedParams w .lw hop, hbase, hrt, hoffset⟩
  case mtc0 => exact ⟨_, _, _, decodeWith_of_wordField decidedParams w .mtc0 hop, hrt, hrd, hsel⟩

/-- The template of LW's line (R161). -/
theorem format_lw (base rt : U8) (offset : U16) :
    format (.lw base rt offset) =
      "lw r".toList ++ dec rt.toNat ++ ", ".toList ++ dec offset.toNat ++ "(".toList ++ dec base.toNat ++
        ")".toList := by
  simp [format, formatLw, lineText, joinOperands, gprOperand, memOperand]

/-- Settles O25: the instruction's one effect is its line (R162), which its template spells. -/
theorem loadPrintsItsLine : Obligations.LoadPrintsItsLine :=
  fun base rt offset => exec_of_format (format_lw base rt offset)

end Sys2Proof.Machine
end

section
/-! SUPPORT. The coprocessor family (R180, R181): the template of MTC0's line, which is its one effect. -/

namespace Sys2Proof.Machine

/-- The template of MTC0's line (R181). -/
theorem format_mtc0 (rt rd sel : U8) :
    format (.mtc0 rt rd sel) =
      "mtc0 r".toList ++ dec rt.toNat ++ ", c".toList ++ dec rd.toNat ++ ", ".toList ++ hex sel.toNat := by
  simp [format, formatMtc0, lineText, joinOperands, gprOperand, cprOperand]

/-- Settles O26: the instruction's one effect is its line, which its template spells. -/
theorem coprocessorMovePrintsItsLine : Obligations.CoprocessorMovePrintsItsLine :=
  fun rt rd sel => exec_of_format (format_mtc0 rt rd sel)

end Sys2Proof.Machine
end

section
/-! SUPPORT. The branch family (R200, R201): the bits of the BEQL offset and the decoded value of BEQL words, and the
template of BEQL's line, which is its one effect. -/

namespace Sys2Proof.Machine

/-- The raw field has the bits of the word's low half (R62). -/
theorem getLsbD_readField16_lowHalf (w : Word) (k : Nat) :
    (readField16 w lowHalfField).getLsbD k = (decide (k < 16) && w.getLsbD k) := by
  rw [getLsbD_readField16, show lowHalfField.width = 16 from rfl, show lowHalfField.lo = 0 from rfl, Nat.zero_add]

/-- With `BEQL_SEXT` clear the offset of a word is its low half moved up to bits 17..2, with zeros around it (R70). -/
theorem getLsbD_beqlOffset_lowHalf (w : Word) (k : Nat) :
    (beqlOffset false (readField16 w lowHalfField)).getLsbD k =
      (decide (2 ≤ k ∧ k ≤ 17) && w.getLsbD (k - 2)) := by
  rw [beqlOffset, if_neg Bool.false_ne_true, BitVec.getLsbD_shiftLeft, BitVec.getLsbD_setWidth,
    getLsbD_readField16_lowHalf]
  by_cases h : 2 ≤ k ∧ k ≤ 17
  · simp [h, show ¬ k < 2 by omega, show k - 2 < 16 by omega, show k < 32 by omega, show k - 2 < 32 by omega]
  · obtain hbelow | habove : k < 2 ∨ ¬ k - 2 < 16 := by omega
    · simp [h, hbelow]
    · simp [h, habove]

/-- Settles O9: the opcode names the kind, its field extractor reads the bits the rule gives, and the 16-bit raw field
bounds the offset. -/
theorem branchWordsDecode : Obligations.BranchWordsDecode := by
  intro w hop
  have hrs := toNat_readField8_eq_wordField w rsField
  have hrt := toNat_readField8_eq_wordField w rtField
  have hoffset := toInt_beqlOffset_lowHalf w
  obtain ⟨-, hlo, hhi⟩ :=
    (beqlOffsetOk_false_iff _).1 (beqlOffsetOk_beqlOffset false (readField16 w lowHalfField))
  exact ⟨_, _, _, decodeWith_of_wordField decidedParams w .beql hop, hrs, hrt, hoffset, hlo, hhi,
    getLsbD_beqlOffset_lowHalf w⟩

/-- The template of BEQL's line (R201). -/
theorem format_beql (rs rt : U8) (offset : I32) :
    format (.beql rs rt offset) =
      "beql r".toList ++ dec rs.toNat ++ ", r".toList ++ dec rt.toNat ++ ", ".toList ++ hex offset.toNat := by
  simp [format, formatBeql, lineText, joinOperands, gprOperand, hexI32]

/-- Settles O27: the instruction's one effect is its line, which its template spells. -/
theorem branchPrintsItsLine : Obligations.BranchPrintsItsLine :=
  fun rs rt offset => exec_of_format (format_beql rs rt offset)

end Sys2Proof.Machine
end

section
/-! SUPPORT. What stops the machine (R300 to R304): a start-up without a readable file, and from a state of the invariant
nothing else. -/

namespace Sys2Proof.Machine

/-- The start-up without a readable file is fatal (R304). -/
theorem step_of_unavailable {s : State} (hphase : s.phase = .startup) (hfile : s.inputFile = .unavailable) :
    step s = .fault .inputFileUnavailable := by
  simp only [step, hphase, State.loadInputFile, hfile]

/-- Settles O36: a word that is left is held whole by the buffer, so it is presented; with none left nothing happens. -/
theorem noWordStopsTheMachine : Obligations.NoWordStopsTheMachine := by
  intro s hinv hphase
  cases hword : s.hasWord with
  | true =>
    obtain ⟨w, hw⟩ := State.exists_presents hinv hphase hword
    exact ⟨_, step_of_presents hw⟩
  | false => exact ⟨s, step_of_no_word hphase hword⟩

/-- Settles O35: a running state of the invariant goes on (O36), and so does a start-up with a file, which loads it. -/
theorem onlyAMissingFileStopsTheMachine : Obligations.OnlyAMissingFileStopsTheMachine := by
  refine ⟨fun s => step_of_unavailable, fun s hinv hstop => ?_⟩
  cases hphase : s.phase with
  | running =>
    obtain ⟨t, ht⟩ := noWordStopsTheMachine s hinv hphase
    exact absurd ht (hstop t)
  | startup =>
    cases hfile : s.inputFile with
    | contents bs => exact absurd (step_of_contents hphase hfile) (hstop _)
    | unavailable => exact ⟨rfl, rfl⟩

/-- Settles O30: the line of a word that decodes to none is the fallback of its opcode. -/
theorem unrecognisedWordPrintsItsFallback : Obligations.UnrecognisedWordPrintsItsFallback := by
  intro s w h hnone
  rw [step_of_presents h, line_of_decode_none hnone]
  rfl

end Sys2Proof.Machine
end

section
/-! SUPPORT. Reset and start-up (R400 to R402): the state before the load meets the invariant, and the load makes the
file's bytes the buffer. -/

namespace Sys2Proof.Machine

/-- What the invariant says before the file is loaded. -/
theorem State.inv_iff_of_startup {s : State} (h : s.phase = .startup) :
    s.Inv ↔ s.buffer.wf = true ∧ s.wordNumber = 0 ∧ s.output = [] := by
  simp [State.Inv, h]

/-- Settles O40: the reset state is before the load, with an empty buffer, word 0 next and nothing printed. -/
theorem resetMeetsTheInvariant : Obligations.ResetMeetsTheInvariant :=
  (State.inv_iff_of_startup rfl).2 ⟨Memory.nil_wf, rfl, rfl⟩

/-- Settles O34: the step is the load, and the loaded buffer is canonical, as long as the file, and reads as its bytes. -/
theorem startupLoadsTheFile : Obligations.StartupLoadsTheFile :=
  fun _ bs hphase hfile => ⟨_, step_of_contents hphase hfile, rfl, rfl, rfl, rfl, rfl, Memory.len_ofBytes bs,
    Memory.ofBytes_wf bs, Memory.read_ofBytes bs⟩

end Sys2Proof.Machine
end
